-- ==== Sys2Proof/Word.lean ====
section
/-! DEFINITION. The word types of the CORE (spec 00_scope.md R4, R5): bytes, 16-bit words, 12-bit addresses, and
the indexes that number registers and keys. -/

namespace Sys2Proof

/-- A memory byte, a general register, a timer: `REG_W` = 8 bits, unsigned (R4, R11, R16, R18). -/
abbrev Byte := BitVec 8

/-- `I`, `pc`, a call-stack entry and an instruction word: 16 bits, unsigned (R4, R13, R14, R15, R50). -/
abbrev Word := BitVec 16

/-- An address at the memory port: 12 bits, so that every address names one of the 4096 bytes (R30). -/
abbrev Addr := BitVec 12

/-- The index of a general register, 0 to 15 (R11). -/
abbrev RegIdx := Fin 16

/-- A logical key number, 0x0 to 0xF (R146). -/
abbrev Key := Fin 16

/-- VF, the register that is also the flag output (R12). -/
abbrev vf : RegIdx := 15

end Sys2Proof
end

