-- ==== Sys2Proof/Machine/Flags.lean ====
section
/-! DEFINITION. The flag computations: what the six flag instructions write into VF (R12), from the latched operands
(R73). VF receives 0 or 1. -/

namespace Sys2Proof.Machine

/-- A flag as VF holds it: 0 or 1 in a full byte (R12). -/
def flagByte (b : Bool) : Byte := if b then 1 else 0

/-- `8xy4`: 1 iff the unsigned sum is at least 256 (R91). -/
def carryFlag (a b : Byte) : Byte := flagByte (decide (256 ≤ a.toNat + b.toNat))

/-- `8xy5`, `8xy7`: 1 iff minuend ≥ subtrahend, unsigned (R92, R94). -/
def noBorrowFlag (minuend subtrahend : Byte) : Byte := flagByte (decide (subtrahend.toNat ≤ minuend.toNat))

/-- `8xy6`: bit 0 of the operand before the shift (R93). -/
def rightOutFlag (a : Byte) : Byte := flagByte (a.getLsbD 0)

/-- `8xyE`: bit 7 of the operand before the shift (R95). -/
def leftOutFlag (a : Byte) : Byte := flagByte (a.getLsbD 7)

/-- `Dxyn`: 1 iff a set pixel was flipped (R111). -/
def collisionFlag (collided : Bool) : Byte := flagByte collided

end Sys2Proof.Machine
end

