-- ==== Sys2Proof/Syntax.lean ====
section
/-! DEFINITION. The instructions (30_encoding.md R52, R54): one constructor per row of spec/opcode_table.json, named by
the row's hex pattern (R58) after the letters op. Operand types carry the width of the field (R51, R53): every value of
a field is legal. An UNDEF word (R56) is no instruction; the decoder rejects it by name. -/

namespace Sys2Proof

inductive Instr where
  /-- CLS: clear the frame buffer (R110). -/
  | op00E0
  /-- RET: return (R75). -/
  | op00EE
  /-- JP nnn: jump (R76). -/
  | op1nnn (nnn : Addr)
  /-- CALL nnn: call (R77). -/
  | op2nnn (nnn : Addr)
  /-- SE Vx, kk: skip if equal (R78). -/
  | op3xkk (x : RegIdx) (kk : Byte)
  /-- SNE Vx, kk: skip if not equal (R79). -/
  | op4xkk (x : RegIdx) (kk : Byte)
  /-- SE Vx, Vy: skip if equal (R80). -/
  | op5xy0 (x y : RegIdx)
  /-- LD Vx, kk (R85). -/
  | op6xkk (x : RegIdx) (kk : Byte)
  /-- ADD Vx, kk: no flag (R86). -/
  | op7xkk (x : RegIdx) (kk : Byte)
  /-- LD Vx, Vy (R87). -/
  | op8xy0 (x y : RegIdx)
  /-- OR Vx, Vy (R88). -/
  | op8xy1 (x y : RegIdx)
  /-- AND Vx, Vy (R89). -/
  | op8xy2 (x y : RegIdx)
  /-- XOR Vx, Vy (R90). -/
  | op8xy3 (x y : RegIdx)
  /-- ADD Vx, Vy with carry out (R91). -/
  | op8xy4 (x y : RegIdx)
  /-- SUB Vx, Vy: Vx − Vy (R92). -/
  | op8xy5 (x y : RegIdx)
  /-- SHR Vx, Vy: shift Vy right into Vx (R93). -/
  | op8xy6 (x y : RegIdx)
  /-- SUBN Vx, Vy: Vy − Vx (R94). -/
  | op8xy7 (x y : RegIdx)
  /-- SHL Vx, Vy: shift Vy left into Vx (R95). -/
  | op8xyE (x y : RegIdx)
  /-- SNE Vx, Vy: skip if not equal (R81). -/
  | op9xy0 (x y : RegIdx)
  /-- LD I, nnn (R100). -/
  | opAnnn (nnn : Addr)
  /-- JP V0, nnn (R82). -/
  | opBnnn (nnn : Addr)
  /-- RND Vx, kk (R96). -/
  | opCxkk (x : RegIdx) (kk : Byte)
  /-- DRW Vx, Vy, n: draw an n-row sprite (R111). -/
  | opDxyn (x y : RegIdx) (n : Fin 16)
  /-- SKP Vx: skip if the key is down (R120). -/
  | opEx9E (x : RegIdx)
  /-- SKNP Vx: skip if the key is up (R121). -/
  | opExA1 (x : RegIdx)
  /-- LD Vx, DT (R122). -/
  | opFx07 (x : RegIdx)
  /-- LD Vx, K: wait for a key (R123). -/
  | opFx0A (x : RegIdx)
  /-- LD DT, Vx (R124). -/
  | opFx15 (x : RegIdx)
  /-- LD ST, Vx (R125). -/
  | opFx18 (x : RegIdx)
  /-- ADD I, Vx (R101). -/
  | opFx1E (x : RegIdx)
  /-- LD F, Vx: glyph address (R102). -/
  | opFx29 (x : RegIdx)
  /-- LD B, Vx: BCD store (R103). -/
  | opFx33 (x : RegIdx)
  /-- LD [I], Vx: store V0 to Vx (R104). -/
  | opFx55 (x : RegIdx)
  /-- LD Vx, [I]: load V0 to Vx (R105). -/
  | opFx65 (x : RegIdx)
deriving DecidableEq, Repr

/-- Why the decoder rejects: the family of UNDEF words the word belongs to (the rows of R56), or too few bytes. -/
inductive DecodeReject where
  /-- `0nnn` with nnn neither 0x0E0 nor 0x0EE. -/
  | undef0nnn
  /-- `5xyz` with z not 0. -/
  | undef5xyz
  /-- `8xyz` with z in 8 to 0xD, or 0xF. -/
  | undef8xyz
  /-- `9xyz` with z not 0. -/
  | undef9xyz
  /-- `Exkk` with kk neither 0x9E nor 0xA1. -/
  | undefExkk
  /-- `Fxkk` with kk none of the nine minor opcodes. -/
  | undefFxkk
  /-- Fewer than the two bytes of an instruction (R50). -/
  | truncated
deriving DecidableEq, Repr

end Sys2Proof
end

