-- ==== Sys2Proof/Decode.lean ====
section
/-! DEFINITION. The decoder (30_encoding.md R50 to R57), a pure function of the instruction word, total, which rejects
an UNDEF word by the name of its family; and after it the encoder, written from the same tables. -/

namespace Sys2Proof

/-! ### Fields (R51) -/

/-- `w = word[15:12]`, the major opcode (R51). -/
def fieldW (word : Word) : BitVec 4 := word.extractLsb' 12 4

/-- `x = word[11:8]`, the index of `Vx` (R51). -/
def fieldX (word : Word) : RegIdx := (word.extractLsb' 8 4).toFin

/-- `y = word[7:4]`, the index of `Vy` (R51). -/
def fieldY (word : Word) : RegIdx := (word.extractLsb' 4 4).toFin

/-- `z = word[3:0]`, the minor opcode (R51). -/
def fieldZ (word : Word) : BitVec 4 := word.extractLsb' 0 4

/-- `n = word[3:0]`, the sprite height of `Dxyn` (R51). -/
def fieldN (word : Word) : Fin 16 := (word.extractLsb' 0 4).toFin

/-- `nnn = word[11:0]`, the address immediate (R51). -/
def fieldNNN (word : Word) : Addr := word.extractLsb' 0 12

/-- `kk = word[7:0]`, the byte immediate (R51). -/
def fieldKK (word : Word) : Byte := word.extractLsb' 0 8

/-! ### Decoding (R54) -/

/-- The words with w = 8: z selects the operation (R54). -/
def decode8 (word : Word) : Except DecodeReject Instr :=
  let x := fieldX word
  let y := fieldY word
  match (fieldZ word).toNat with
  | 0x0 => .ok (.op8xy0 x y)
  | 0x1 => .ok (.op8xy1 x y)
  | 0x2 => .ok (.op8xy2 x y)
  | 0x3 => .ok (.op8xy3 x y)
  | 0x4 => .ok (.op8xy4 x y)
  | 0x5 => .ok (.op8xy5 x y)
  | 0x6 => .ok (.op8xy6 x y)
  | 0x7 => .ok (.op8xy7 x y)
  | 0xE => .ok (.op8xyE x y)
  | _ => .error .undef8xyz

/-- The words with w = 0xE: kk selects the operation (R54). -/
def decodeE (word : Word) : Except DecodeReject Instr :=
  let x := fieldX word
  match (fieldKK word).toNat with
  | 0x9E => .ok (.opEx9E x)
  | 0xA1 => .ok (.opExA1 x)
  | _ => .error .undefExkk

/-- The words with w = 0xF: kk selects the operation (R54). -/
def decodeF (word : Word) : Except DecodeReject Instr :=
  let x := fieldX word
  match (fieldKK word).toNat with
  | 0x07 => .ok (.opFx07 x)
  | 0x0A => .ok (.opFx0A x)
  | 0x15 => .ok (.opFx15 x)
  | 0x18 => .ok (.opFx18 x)
  | 0x1E => .ok (.opFx1E x)
  | 0x29 => .ok (.opFx29 x)
  | 0x33 => .ok (.opFx33 x)
  | 0x55 => .ok (.opFx55 x)
  | 0x65 => .ok (.opFx65 x)
  | _ => .error .undefFxkk

/-- The words with w = 0: only two are defined (R54). -/
def decode0 (word : Word) : Except DecodeReject Instr :=
  match (fieldNNN word).toNat with
  | 0x0E0 => .ok .op00E0
  | 0x0EE => .ok .op00EE
  | _ => .error .undef0nnn

/-- The opcode map by w (R54, R56). DEDUCED (log 27): the z values of the 8xy_ group are doc00's listed order.
`5xyz` and `9xyz` with z not 0 are UNDEF (D22, log 20). -/
def decodeWord (word : Word) : Except DecodeReject Instr :=
  let x := fieldX word
  let y := fieldY word
  let kk := fieldKK word
  let nnn := fieldNNN word
  match (fieldW word).toNat with
  | 0x0 => decode0 word
  | 0x1 => .ok (.op1nnn nnn)
  | 0x2 => .ok (.op2nnn nnn)
  | 0x3 => .ok (.op3xkk x kk)
  | 0x4 => .ok (.op4xkk x kk)
  | 0x5 => if fieldZ word = 0 then .ok (.op5xy0 x y) else .error .undef5xyz
  | 0x6 => .ok (.op6xkk x kk)
  | 0x7 => .ok (.op7xkk x kk)
  | 0x8 => decode8 word
  | 0x9 => if fieldZ word = 0 then .ok (.op9xy0 x y) else .error .undef9xyz
  | 0xA => .ok (.opAnnn nnn)
  | 0xB => .ok (.opBnnn nnn)
  | 0xC => .ok (.opCxkk x kk)
  | 0xD => .ok (.opDxyn x y (fieldN word))
  | 0xE => decodeE word
  | _ => decodeF word

/-- The word of two bytes, the byte at the lower address most significant (R38, R39, R50). -/
def wordOfBytes (hi lo : Byte) : Word := hi ++ lo

/-- Decodes the first instruction of a list of bytes and answers it with the rest; every instruction is two bytes
long (R50, R57). -/
def decodeBytes : List Byte → Except DecodeReject (Instr × List Byte)
  | hi :: lo :: rest =>
    match decodeWord (wordOfBytes hi lo) with
    | .ok i => .ok (i, rest)
    | .error e => .error e
  | _ => .error .truncated

/-- The most significant byte of a word, which lies at the lower address (R39, R50). -/
def hiByte (word : Word) : Byte := word.extractLsb' 8 8

/-- The least significant byte of a word (R39, R50). -/
def loByte (word : Word) : Byte := word.extractLsb' 0 8

/-- The word that the opcode table numbers: bit 0 is the least significant bit of the word, and every bit above
`nbits` is 0. -/
def tableWord (nbits w : Nat) : Word := BitVec.ofNat 16 (w % 2 ^ nbits)

/-- What the decoder reads from an instruction given as the opcode table numbers its bits: the word is laid out as the
hardware stores it, high byte first (R39). -/
def decodeTableWord (nbits w : Nat) : Option Instr :=
  match decodeBytes [hiByte (tableWord nbits w), loByte (tableWord nbits w)] with
  | .ok (i, _) => some i
  | .error _ => none

/-! ### Encoding (R52, R54) -/

/-- A register index as the 4-bit field that names it (R51). -/
def regField (r : RegIdx) : BitVec 4 := BitVec.ofFin r

/-- Format NNN (R52). -/
def formatNNN (w : BitVec 4) (nnn : Addr) : Word := w ++ nnn

/-- Format XKK (R52); format X is the same with a minor opcode as kk. -/
def formatXKK (w : BitVec 4) (x : RegIdx) (kk : Byte) : Word := w ++ (regField x ++ kk)

/-- Format XYN (R52); format XY is the same with a minor opcode as n. -/
def formatXYN (w : BitVec 4) (x y : RegIdx) (n : BitVec 4) : Word := w ++ (regField x ++ (regField y ++ n))

/-- The word of an instruction (R52, R54). -/
def encode : Instr → Word
  | .op00E0 => 0x00E0
  | .op00EE => 0x00EE
  | .op1nnn nnn => formatNNN 0x1 nnn
  | .op2nnn nnn => formatNNN 0x2 nnn
  | .op3xkk x kk => formatXKK 0x3 x kk
  | .op4xkk x kk => formatXKK 0x4 x kk
  | .op5xy0 x y => formatXYN 0x5 x y 0x0
  | .op6xkk x kk => formatXKK 0x6 x kk
  | .op7xkk x kk => formatXKK 0x7 x kk
  | .op8xy0 x y => formatXYN 0x8 x y 0x0
  | .op8xy1 x y => formatXYN 0x8 x y 0x1
  | .op8xy2 x y => formatXYN 0x8 x y 0x2
  | .op8xy3 x y => formatXYN 0x8 x y 0x3
  | .op8xy4 x y => formatXYN 0x8 x y 0x4
  | .op8xy5 x y => formatXYN 0x8 x y 0x5
  | .op8xy6 x y => formatXYN 0x8 x y 0x6
  | .op8xy7 x y => formatXYN 0x8 x y 0x7
  | .op8xyE x y => formatXYN 0x8 x y 0xE
  | .op9xy0 x y => formatXYN 0x9 x y 0x0
  | .opAnnn nnn => formatNNN 0xA nnn
  | .opBnnn nnn => formatNNN 0xB nnn
  | .opCxkk x kk => formatXKK 0xC x kk
  | .opDxyn x y n => formatXYN 0xD x y (regField n)
  | .opEx9E x => formatXKK 0xE x 0x9E
  | .opExA1 x => formatXKK 0xE x 0xA1
  | .opFx07 x => formatXKK 0xF x 0x07
  | .opFx0A x => formatXKK 0xF x 0x0A
  | .opFx15 x => formatXKK 0xF x 0x15
  | .opFx18 x => formatXKK 0xF x 0x18
  | .opFx1E x => formatXKK 0xF x 0x1E
  | .opFx29 x => formatXKK 0xF x 0x29
  | .opFx33 x => formatXKK 0xF x 0x33
  | .opFx55 x => formatXKK 0xF x 0x55
  | .opFx65 x => formatXKK 0xF x 0x65

/-- The two bytes of an instruction as memory holds them, high byte first (R39). -/
def encodeBytes (i : Instr) : List Byte := [hiByte (encode i), loByte (encode i)]

end Sys2Proof
end

