-- ==== Sys2Proof/Config.lean ====
section
/-! DEFINITION. What is fixed for one machine and what the environment chooses: the parameters of R4 that the spec
calls model arguments, the inputs of one iteration (R135), and the free values the environment supplies. The literals
and the default values of the parameters stand in Machine/Params.lean. -/

namespace Sys2Proof

/-- The model arguments of R4. They are constant for a run (R19, R151): no instruction reads one into a register and
none changes one. DESIGN CHOICE (log 1): they are held in `State.cfg`. -/
structure Config where
  /-- `STACK_DEPTH`, the greatest number of call-stack entries, at least 1 (R4, R15, D1). -/
  stackDepth : Nat
  /-- `STRICT`: stack overflow and an unknown opcode halt the engine (R4, R151). -/
  strict : Bool
  /-- `FONT`, the 80 bytes that `init` installs at 0x050 (R4, R32, D11). -/
  font : Vector Byte 80
deriving DecidableEq, Repr

/-- The values the environment supplies for one iteration of the driving loop (R135, D18). -/
structure Inputs where
  /-- A termination event was among the events polled (R136). -/
  quit : Bool
  /-- The logical keys whose key-down edges were polled, in event order (R137, R138). -/
  edges : List Key
  /-- The level of each logical key at the time of the step: true is down (R146). -/
  keys : Vector Bool 16
  /-- The random byte of the step (R148). -/
  rnd : Byte
  /-- The answer to the elapsed-time test of the step (R144). -/
  tickDue : Bool
deriving DecidableEq, Repr, Inhabited

/-- FREE VALUE (log 3, log 14). The environment's choice for the n-th iteration whose inputs nothing has settled: under no
law (R135, R144, R148). It has no body, so nothing can be proved of what it answers. -/
opaque Config.freeInputs : Nat → Inputs

end Sys2Proof
end

