-- ==== Sys2Proof/Machine/Params.lean ====
section
/-! DEFINITION. The literals of R4 (column "fixed by doc00") and the default values of its model arguments.
UNVERIFIED (log 26): the literals are doc00's, which nothing in the spec audits against the repository. -/

namespace Sys2Proof.Machine

/-- `MEM_SIZE`: addresses 0x000 to 0xFFF (R4, R30). -/
def memSize : Nat := 0x1000

/-- `PC_LIMIT`: a step executes only when pc is below it (R4, R66). -/
def pcLimit : Nat := 0xFFF

/-- `FONT_BASE`, the first address of the font table (R4, R32). -/
def fontBase : Nat := 0x050

/-- Bytes of one glyph (R32). -/
def glyphBytes : Nat := 5

/-- `PROG_BASE`: the load address and the reset value of pc (R4, R21, R33). -/
def progBase : Nat := 0x200

/-- `PROG_MAX`: the greatest length of a ROM (R4, R162). -/
def progMax : Nat := 0xCA0

/-- `FB_BASE`, the first address of the frame buffer (R4, R34). -/
def fbBase : Nat := 0xF00

/-- `FB_SIZE`, the bytes of the frame buffer (R4, R34). -/
def fbSize : Nat := 256

/-- `COLS`, the pixel columns (R4). -/
def cols : Nat := 64

/-- `ROWS`, the pixel rows (R4). -/
def rows : Nat := 32

/-- The default of `FONT` (R32). PRESUMED (log 2): doc00 omits the bytes and the spec supplies the conventional table
from general knowledge (G1). -/
def defaultFont : Vector Byte 80 := #v[
  0xF0, 0x90, 0x90, 0x90, 0xF0,
  0x20, 0x60, 0x20, 0x20, 0x70,
  0xF0, 0x10, 0xF0, 0x80, 0xF0,
  0xF0, 0x10, 0xF0, 0x10, 0xF0,
  0x90, 0x90, 0xF0, 0x10, 0x10,
  0xF0, 0x80, 0xF0, 0x10, 0xF0,
  0xF0, 0x80, 0xF0, 0x90, 0xF0,
  0xF0, 0x10, 0x20, 0x40, 0x40,
  0xF0, 0x90, 0xF0, 0x90, 0xF0,
  0xF0, 0x90, 0xF0, 0x10, 0xF0,
  0xF0, 0x90, 0xF0, 0x90, 0x90,
  0xE0, 0x90, 0xE0, 0x90, 0xE0,
  0xF0, 0x80, 0x80, 0x80, 0xF0,
  0xE0, 0x90, 0x90, 0x90, 0xE0,
  0xF0, 0x80, 0xF0, 0x80, 0xF0,
  0xF0, 0x80, 0xF0, 0x80, 0x80]

/-- The defaults of R4: `STACK_DEPTH` 24 (D1), `STRICT` false (D2, D3), `FONT` the table of R32 (D11). -/
def defaultConfig : Config := { stackDepth := 24, strict := false, font := defaultFont }

/-- Inputs of an iteration in which nothing happens outside: the quiet inputs of 95_test_vectors.md. -/
def quietInputs : Inputs :=
  { quit := false, edges := [], keys := Vector.replicate 16 false, rnd := 0, tickDue := false }

end Sys2Proof.Machine
end

