-- ==== Sys2Proof/Machine/State.lean ====
section
/-! DEFINITION. The state of the CORE (10_state.md R10), the outcomes other than a next state, and reset (R21). -/

namespace Sys2Proof.Machine

/-- The execution state machine (R17, R134). -/
inductive ExecState where
  /-- The initial state: the engine executes. -/
  | running
  /-- `Fx0A` has executed; register r will receive the key. -/
  | waitingForKey (r : RegIdx)
  /-- Terminal (R139). -/
  | halted
deriving DecidableEq, Repr

/-- Memory contents: the bytes that differ from the reset contents, addresses strictly rising (log 22; see
Machine/Memory.lean). -/
abbrev Memory := List Host.Cell

/-- The state: the eight items of R10, then the parameters (log 1), the inputs and the output of an iteration (log 3,
log 5), and the model's own record of what the environment has settled (log 3). -/
structure State where
  /-- `mem`, 4096 bytes (R18). -/
  mem : Memory
  /-- `V0` to `VF` (R11). -/
  v : Vector Byte 16
  /-- `I`, the address register (R13). -/
  i : Word
  /-- The program counter (R14). DESIGN CHOICE (log 10): 16 bits unsigned, the spec's D7. -/
  pc : Word
  /-- The call stack (R15), newest entry first (log 23). -/
  stack : List Word
  /-- `DT`, the delay timer (R16). -/
  dt : Byte
  /-- `ST`, the sound timer (R16). -/
  st : Byte
  /-- `state` (R17). -/
  status : ExecState
  /-- The parameters of R4, constant for a run. DESIGN CHOICE (log 1): held here. -/
  cfg : Config
  /-- The inputs sampled for the iteration under way (R135). DESIGN CHOICE (log 3): every iteration overwrites them
  before anything reads them. -/
  inputs : Inputs
  /-- The inputs of coming iterations that the environment has settled, soonest first. DESIGN CHOICE (log 3). -/
  schedule : List Inputs
  /-- How many iterations have drawn their inputs from `Config.freeInputs`. DESIGN CHOICE (log 3). -/
  drawn : Nat
  /-- `present`: the last iteration handed the frame buffer to the renderer (R135, R147). DESIGN CHOICE (log 5). -/
  present : Bool
deriving DecidableEq, Repr

/-- Why the machine stops. The hardware has no traps (R130), and no instruction and no step raises this fault. -/
inductive Fault where
  /-- Raised by a two-byte read whose second byte lies outside the 4096 bytes (R6: the read is used only up to 0xFFE).
  Safe. The range check of R66 keeps a step from it (log 24). -/
  | noSuchAddress (addr : Nat)
deriving DecidableEq, Repr

/-- Why the model gives no meaning. -/
inductive Refusal where
  /-- Raised by an arm of `exec` whose instruction has no meaning yet; no arm raises it. Safe. -/
  | notModelled (mnemonic : String)
  /-- Raised by `load` for a ROM longer than 0xCA0 bytes (R162, D15, log 16). Safe. -/
  | romTooLong (length : Nat)
deriving DecidableEq, Repr

/-- What a step, an instruction or a load answers. -/
abbrev Result := Host.Outcome State Fault Refusal

/-- `init` (R160, R21) for the given parameters: every byte of memory at its reset contents, registers, stack and timers
zero, pc at 0x200, state `Running`. The last five fields are not the CORE's: DESIGN CHOICE (log 1, log 3, log 5). -/
def State.init (cfg : Config) : State :=
  { mem := []
    v := Vector.replicate 16 0
    i := 0
    pc := BitVec.ofNat 16 progBase
    stack := []
    dt := 0
    st := 0
    status := .running
    cfg := cfg
    inputs := quietInputs
    schedule := []
    drawn := 0
    present := false }

/-- The machine right after reset, with the default parameters of R4 (log 1, log 2). -/
def State.reset : State := State.init defaultConfig

end Sys2Proof.Machine
end

