-- ==== Sys2Proof/Machine/Memory.lean ====
section
/-! DEFINITION. Memory as plain data (20_memory.md R30, R37): a list of cells in one canonical form, strictly rising
addresses below 0x1000, no entry equal to what an unlisted address reads as (log 22). -/

namespace Sys2Proof.Machine

/-- What an address no cell lists reads as: the reset contents, which are FONT at 0x050 to 0x09F and zero elsewhere (R21,
R160). -/
def resetByte (font : Vector Byte 80) (a : Nat) : Byte :=
  if h : fontBase ≤ a ∧ a < fontBase + 80 then font[a - fontBase]'(by omega) else 0

/-- The byte a cell lists for an address, if one does. -/
def Memory.lookup : Memory → Nat → Option Byte
  | [], _ => none
  | (k, b) :: rest, a => if k = a then some b else Memory.lookup rest a

/-- The byte at an address (R37). -/
def Memory.read (font : Vector Byte 80) (m : Memory) (a : Nat) : Byte :=
  (Memory.lookup m a).getD (resetByte font a)

/-- Lists a byte for an address, in address order. -/
def Memory.insert : Memory → Nat → Byte → Memory
  | [], a, b => [(a, b)]
  | (k, c) :: rest, a, b =>
    if a < k then (a, b) :: (k, c) :: rest
    else if a = k then (a, b) :: rest
    else (k, c) :: Memory.insert rest a b

/-- Removes what is listed for an address. -/
def Memory.erase (m : Memory) (a : Nat) : Memory := m.filter (fun c => c.1 != a)

/-- Sets the byte at an address (R37) and keeps the canonical form: a byte equal to the reset contents is not listed. -/
def Memory.write (font : Vector Byte 80) (m : Memory) (a : Nat) (b : Byte) : Memory :=
  if b = resetByte font a then Memory.erase m a else Memory.insert m a b

/-- The addresses of a list of cells rise strictly. -/
def Memory.rising : Memory → Bool
  | [] => true
  | [_] => true
  | (a, _) :: (k, c) :: rest => decide (a < k) && Memory.rising ((k, c) :: rest)

/-- The canonical form: addresses strictly rising and inside the 4096 bytes (R30), no cell equal to the reset contents. -/
def Memory.wf (font : Vector Byte 80) (m : Memory) : Bool :=
  Memory.rising m && m.all (fun c => decide (c.1 < memSize) && c.2 != resetByte font c.1)

end Sys2Proof.Machine
end

