-- ==== Sys2Proof/Machine/Ops.lean ====
section
/-! DEFINITION. The named operations over registers, memory, stack, timers and execution state that every meaning is
written with (the primitives of 00_scope.md R6), and the one operation that resolves an engine condition (R131). -/

namespace Sys2Proof.Machine

/-! ### Registers (R6, R11, R13, R14, R16, R17) -/

/-- `V[x]`. -/
def State.readV (s : State) (x : RegIdx) : Byte := s.v[x]

/-- `V[x] <- b`. No register is hard-wired (R11). -/
def State.writeV (s : State) (x : RegIdx) (b : Byte) : State := { s with v := s.v.set x b }

/-- `I <- a`. -/
def State.setI (s : State) (a : Word) : State := { s with i := a }

/-- `pc <- a`. -/
def State.setPc (s : State) (a : Word) : State := { s with pc := a }

/-- Replaces the call stack. -/
def State.setStack (s : State) (l : List Word) : State := { s with stack := l }

/-- `DT <- b`. -/
def State.setDT (s : State) (b : Byte) : State := { s with dt := b }

/-- `ST <- b`. -/
def State.setST (s : State) (b : Byte) : State := { s with st := b }

/-- `state <- e`. -/
def State.setStatus (s : State) (e : ExecState) : State := { s with status := e }

/-- Answers `present` for the iteration (R135). -/
def State.setPresent (s : State) (b : Bool) : State := { s with present := b }

/-! ### Memory (R36, R37, R38) -/

/-- The data effective address: `a mod 0x1000` (R36). DESIGN CHOICE (log 7): the wrap is the spec's D4. -/
def ea (a : Nat) : Addr := BitVec.ofNat 12 a

/-- `mem[a]`, a byte read with no side effect (R37, R41). -/
def State.readByte (s : State) (a : Addr) : Byte := Memory.read s.cfg.font s.mem a.toNat

/-- `mem[a] <- b`; no other byte changes (R37). Every address is writable, the font included (R32, D19, log 18). -/
def State.writeByte (s : State) (a : Addr) (b : Byte) : State :=
  { s with mem := Memory.write s.cfg.font s.mem a.toNat b }

/-- `MemRead(addr, 2)`: the bytes at addr and addr + 1, high byte first, with no `ea` (R6, R38). It is defined up to 0xFFE;
beyond, the second byte does not exist (log 24). -/
def State.readWord (s : State) (addr : Nat) : Except Fault Word :=
  if addr + 1 < memSize then
    .ok (wordOfBytes (s.readByte (BitVec.ofNat 12 addr)) (s.readByte (BitVec.ofNat 12 (addr + 1))))
  else .error (.noSuchAddress (addr + 1))

/-- Writes a list of bytes at rising effective addresses from `a` on, the first byte first. -/
def State.writeBytes (s : State) (a : Nat) : List Byte → State
  | [] => s
  | b :: rest => (s.writeByte (ea a) b).writeBytes (a + 1) rest

/-- Writes `count` zero bytes at rising addresses from `a` on. -/
def State.zeroBytes (s : State) (a count : Nat) : State := s.writeBytes a (List.replicate count 0)

/-- The 256 bytes the renderer is given, in address order (R34, R147). -/
def State.frameBuffer (s : State) : List Byte :=
  (List.range fbSize).map (fun k => s.readByte (ea (fbBase + k)))

/-! ### Program counter (R66, R68) -/

/-- A step executes only when pc is below 0xFFF (R66); pc is unsigned, so the lower bound always holds (C11). -/
def State.pcInRange (s : State) : Bool := decide (s.pc.toNat < pcLimit)

/-- `pc <- pc + 2`: the advance every fetched word gets, and again the taken skip (R68, R6). -/
def State.advance (s : State) : State := s.setPc (s.pc + 2)

/-- `skip` when the condition holds (R6). -/
def State.skipIf (s : State) (c : Bool) : State := if c then s.advance else s

/-! ### Engine conditions (R131) -/

/-- The conditions an engine step can meet (R131). `LoadFailure` belongs to the loader (R163). -/
inductive Condition where
  /-- The range check fails (R66). -/
  | pcOutOfBounds
  /-- `00EE` with an empty stack (R75). -/
  | stackUnderflow
  /-- `2nnn` with a full stack (R77). -/
  | stackOverflow
  /-- The fetched word is UNDEF (R70). -/
  | unknownOpcode
deriving DecidableEq, Repr

/-- `state <- Halted`; nothing is recorded (R131, D17, log 17). -/
def State.halt (s : State) : State := s.setStatus .halted

/-- `raise` (R6, R131, R151): the first two conditions halt; the last two do nothing, or halt when STRICT is true. There
is no trap: nothing is saved, and there is no return (R130, R141). -/
def State.raise (s : State) : Condition → State
  | .pcOutOfBounds => s.halt
  | .stackUnderflow => s.halt
  | .stackOverflow => if s.cfg.strict then s.halt else s
  | .unknownOpcode => if s.cfg.strict then s.halt else s

/-! ### Call stack (R15) -/

/-- `push(stack, a)`. -/
def State.push (s : State) (a : Word) : State := s.setStack (a :: s.stack)

/-- `len(stack) == STACK_DEPTH` (R77). -/
def State.stackFull (s : State) : Bool := s.stack.length == s.cfg.stackDepth

/-! ### Timers (R143) -/

/-- One decrement with a floor at 0 (R143). -/
def countDown (t : Byte) : Byte := if 0 < t.toNat then t - 1 else t

/-- The tick: each timer is decremented independently (R143). -/
def State.tick (s : State) : State := (s.setDT (countDown s.dt)).setST (countDown s.st)

/-- The timer check of a step: one tick when the input `tick_due` is true (R71, R144). -/
def State.timerCheck (s : State) : State := if s.inputs.tickDue then s.tick else s

/-! ### Results -/

/-- A result and a flag: the flag is written last, so that VF holds the flag when it is also the destination (R73). -/
def State.writeResultFlag (s : State) (x : RegIdx) (result flag : Byte) : State := (s.writeV x result).writeV vf flag

/-- Goes on from a next state; a fault or a refusal stays as it is. -/
def thenNext (o : Result) (f : State → State) : Result :=
  match o with
  | .next s => .next (f s)
  | .fault r => .fault r
  | .refused r => .refused r

end Sys2Proof.Machine
end

