-- ==== Sys2Proof/Machine/Operands.lean ====
section
/-! DEFINITION. The operand forms of the instruction set (30_encoding.md R53; 43_index_memory.md; 45_keypad_timers.md).
A register operand is `State.readV` of the state before the instruction writes anything (R73). -/

namespace Sys2Proof.Machine

/-- `nnn`, a 12-bit immediate zero-extended to 16 bits (R53). -/
def addrImm (nnn : Addr) : Word := nnn.zeroExtend 16

/-- A register's byte zero-extended to 16 bits (R6, R82, R101). -/
def zextByte (b : Byte) : Word := b.zeroExtend 16

/-- `I + k` at the memory port: the one addressing mode of data accesses (R36, 43_index_memory.md). -/
def State.baseAddr (s : State) (k : Nat) : Addr := ea (s.i.toNat + k)

/-- The address of glyph g: `0x050 + 5*g`, with all 8 bits of g (R102). -/
def glyphAddr (g : Byte) : Word := BitVec.ofNat 16 (fontBase + glyphBytes * g.toNat)

/-- The decimal digits of a byte: hundreds, tens, units, one byte each (R103). -/
def bcdDigits (b : Byte) : List Byte :=
  [BitVec.ofNat 8 (b.toNat / 100), BitVec.ofNat 8 (b.toNat / 10 % 10), BitVec.ofNat 8 (b.toNat % 10)]

/-- The registers V0 to Vx in ascending order: the block of `Fx55` and `Fx65` (R104, R105). -/
def regBlock (x : RegIdx) : List RegIdx := (List.finRange 16).filter (fun r => decide (r ≤ x))

/-- `pressed(k)`: the level of key k, and false for a number that names no key (45_keypad_timers.md). DESIGN CHOICE
(log 12): the second half is the spec's D9. -/
def State.pressed (s : State) (k : Byte) : Bool :=
  if h : k.toNat < 16 then s.inputs.keys[k.toNat] else false

end Sys2Proof.Machine
end

