-- ==== Sys2Proof/Machine/Alu.lean ====
section
/-! DEFINITION. Register load, arithmetic, logic, shift and random instructions (42_load_alu.md R85 to R97). -/

namespace Sys2Proof.Machine

/-- `6xkk` (R85). -/
def exec6xkk (x : RegIdx) (kk : Byte) (s : State) : Result := .next (s.writeV x kk)

/-- `7xkk` (R86): modulo 256, no flag. -/
def exec7xkk (x : RegIdx) (kk : Byte) (s : State) : Result := .next (s.writeV x (s.readV x + kk))

/-- `8xy0` (R87). -/
def exec8xy0 (x y : RegIdx) (s : State) : Result := .next (s.writeV x (s.readV y))

/-- `8xy1` (R88). DESIGN CHOICE (log 19): VF unchanged is the spec's D21, here and in R89, R90. -/
def exec8xy1 (x y : RegIdx) (s : State) : Result := .next (s.writeV x (s.readV x ||| s.readV y))

/-- `8xy2` (R89). -/
def exec8xy2 (x y : RegIdx) (s : State) : Result := .next (s.writeV x (s.readV x &&& s.readV y))

/-- `8xy3` (R90). -/
def exec8xy3 (x y : RegIdx) (s : State) : Result := .next (s.writeV x (s.readV x ^^^ s.readV y))

/-- `8xy4` (R91): sum modulo 256, VF the carry. -/
def exec8xy4 (x y : RegIdx) (s : State) : Result :=
  .next (s.writeResultFlag x (s.readV x + s.readV y) (carryFlag (s.readV x) (s.readV y)))

/-- `8xy5` (R92): Vx − Vy modulo 256, VF no-borrow. -/
def exec8xy5 (x y : RegIdx) (s : State) : Result :=
  .next (s.writeResultFlag x (s.readV x - s.readV y) (noBorrowFlag (s.readV x) (s.readV y)))

/-- `8xy6` (R93): the source is Vy. -/
def exec8xy6 (x y : RegIdx) (s : State) : Result :=
  .next (s.writeResultFlag x (s.readV y >>> 1) (rightOutFlag (s.readV y)))

/-- `8xy7` (R94): Vy − Vx modulo 256, VF no-borrow. -/
def exec8xy7 (x y : RegIdx) (s : State) : Result :=
  .next (s.writeResultFlag x (s.readV y - s.readV x) (noBorrowFlag (s.readV y) (s.readV x)))

/-- `8xyE` (R95): the source is Vy. -/
def exec8xyE (x y : RegIdx) (s : State) : Result :=
  .next (s.writeResultFlag x (s.readV y <<< 1) (leftOutFlag (s.readV y)))

/-- `Cxkk` (R96): the step's random byte masked by kk (R148, D12, log 14). -/
def execCxkk (x : RegIdx) (kk : Byte) (s : State) : Result := .next (s.writeV x (s.inputs.rnd &&& kk))

end Sys2Proof.Machine
end

