-- ==== Sys2Proof/Machine/Control.lean ====
section
/-! DEFINITION. Control transfer (41_control_flow.md R75 to R82). In every meaning pc is already the address of the
instruction plus 2 (R68). -/

namespace Sys2Proof.Machine

/-- `00EE` (R75): pops pc; on an empty stack StackUnderflow. -/
def exec00EE (s : State) : Result :=
  match s.stack with
  | [] => .next (s.raise .stackUnderflow)
  | a :: rest => .next ((s.setStack rest).setPc a)

/-- `1nnn` (R76). -/
def exec1nnn (nnn : Addr) (s : State) : Result := .next (s.setPc (addrImm nnn))

/-- `2nnn` (R77): pushes the advanced pc and jumps; on a full stack StackOverflow. -/
def exec2nnn (nnn : Addr) (s : State) : Result :=
  if s.stackFull then .next (s.raise .stackOverflow) else .next ((s.push s.pc).setPc (addrImm nnn))

/-- `3xkk` (R78). -/
def exec3xkk (x : RegIdx) (kk : Byte) (s : State) : Result := .next (s.skipIf (s.readV x == kk))

/-- `4xkk` (R79). -/
def exec4xkk (x : RegIdx) (kk : Byte) (s : State) : Result := .next (s.skipIf (s.readV x != kk))

/-- `5xy0` (R80). -/
def exec5xy0 (x y : RegIdx) (s : State) : Result := .next (s.skipIf (s.readV x == s.readV y))

/-- `9xy0` (R81). -/
def exec9xy0 (x y : RegIdx) (s : State) : Result := .next (s.skipIf (s.readV x != s.readV y))

/-- `Bnnn` (R82): the sum is not reduced modulo 0x1000. DESIGN CHOICE (log 10): the spec's D7. -/
def execBnnn (nnn : Addr) (s : State) : Result := .next (s.setPc (zextByte (s.readV 0) + addrImm nnn))

end Sys2Proof.Machine
end

