-- ==== Sys2Proof/Machine/Display.lean ====
section
/-! DEFINITION. Display instructions (44_display.md R110, R111) over the frame buffer in memory (20_memory.md R34, R35). -/

namespace Sys2Proof.Machine

/-- The address of the byte that holds the pixel at a column and a row of the grid (R35). -/
def pixelAddr (col row : Nat) : Addr := ea (fbBase + 8 * row + col / 8)

/-- The bit of that byte: the leftmost pixel is bit 7 (R35). -/
def pixelBit (col : Nat) : Nat := 7 - col % 8

/-- The pixel at a column and a row of the grid: true is set (R35). -/
def State.pixel (s : State) (col row : Nat) : Bool := (s.readByte (pixelAddr col row)).getLsbD (pixelBit col)

/-- `mem[a][bit] <- mem[a][bit] ^ 1` for the pixel at a column and a row (R111). -/
def State.flipPixel (s : State) (col row : Nat) : State :=
  s.writeByte (pixelAddr col row) (s.readByte (pixelAddr col row) ^^^ BitVec.twoPow 8 (pixelBit col))

/-- One pixel of a sprite row: b counts from the left, so it is bit 7 − b of the sprite byte. A clear sprite bit and a
column of 64 or more change nothing and cannot collide (R111). DESIGN CHOICE (log 8): clipping is the spec's D5. -/
def drawPixel (vx row : Nat) (sprite : Byte) (acc : State × Bool) (b : Nat) : State × Bool :=
  if vx + b < cols ∧ sprite.getLsbD (7 - b) = true then
    (acc.1.flipPixel (vx + b) row, acc.2 || acc.1.pixel (vx + b) row)
  else acc

/-- One sprite row, its eight pixels from the left; a row of 32 or more is discarded (R111, D5). -/
def drawRow (vx row : Nat) (sprite : Byte) (acc : State × Bool) : State × Bool :=
  if row < rows then (List.range 8).foldl (drawPixel vx row sprite) acc else acc

/-- The first n sprite rows in ascending order; the byte of row r is read at `ea(base + r)` when row r is drawn, after
the rows before it were written (R111). DESIGN CHOICE (log 9): the order is the spec's D6. -/
def drawSprite (vx vy base : Nat) (s : State) : Nat → State × Bool
  | 0 => (s, false)
  | n + 1 =>
    let acc := drawSprite vx vy base s n
    drawRow vx (vy + n) (acc.1.readByte (ea (base + n))) acc

/-- `00E0` (R110): the 256 bytes of the frame buffer become zero. -/
def exec00E0 (s : State) : Result := .next (s.zeroBytes fbBase fbSize)

/-- `Dxyn` (R111): Vx, Vy and I are latched, the rows are drawn, and VF receives the collision flag last. -/
def execDxyn (x y : RegIdx) (n : Fin 16) (s : State) : Result :=
  let drawn := drawSprite (s.readV x).toNat (s.readV y).toNat s.i.toNat s n.val
  .next (drawn.1.writeV vf (collisionFlag drawn.2))

end Sys2Proof.Machine
end

