-- ==== Sys2Proof/Machine/Index.lean ====
section
/-! DEFINITION. Address register and memory instructions (43_index_memory.md R100 to R105). DESIGN CHOICE (log 15): no
memory access changes I, the spec's D14. -/

namespace Sys2Proof.Machine

/-- `Annn` (R100). -/
def execAnnn (nnn : Addr) (s : State) : Result := .next (s.setI (addrImm nnn))

/-- `Fx1E` (R101): modulo 0x10000, no flag. DESIGN CHOICE (log 11): the wrap is the spec's D8. -/
def execFx1E (x : RegIdx) (s : State) : Result := .next (s.setI (s.i + zextByte (s.readV x)))

/-- `Fx29` (R102). -/
def execFx29 (x : RegIdx) (s : State) : Result := .next (s.setI (glyphAddr (s.readV x)))

/-- `Fx33` (R103): the three digits at I, I+1, I+2. -/
def execFx33 (x : RegIdx) (s : State) : Result := .next (s.writeBytes s.i.toNat (bcdDigits (s.readV x)))

/-- Stores registers in the order of the list, register r at `base + r` (R104). -/
def State.storeRegs (s : State) (base : Nat) : List RegIdx → State
  | [] => s
  | r :: rest => (s.writeByte (ea (base + r.val)) (s.readV r)).storeRegs base rest

/-- Loads registers in the order of the list, register r from `base + r` (R105). -/
def State.loadRegs (s : State) (base : Nat) : List RegIdx → State
  | [] => s
  | r :: rest => (s.writeV r (s.readByte (ea (base + r.val)))).loadRegs base rest

/-- `Fx55` (R104). -/
def execFx55 (x : RegIdx) (s : State) : Result := .next (s.storeRegs s.i.toNat (regBlock x))

/-- `Fx65` (R105). -/
def execFx65 (x : RegIdx) (s : State) : Result := .next (s.loadRegs s.i.toNat (regBlock x))

end Sys2Proof.Machine
end

