-- ==== Sys2Proof/Machine/Keypad.lean ====
section
/-! DEFINITION. Keypad and timer instructions (45_keypad_timers.md R120 to R125). None is privileged (R142). -/

namespace Sys2Proof.Machine

/-- `Ex9E` (R120): the level of the key, not an edge. -/
def execEx9E (x : RegIdx) (s : State) : Result := .next (s.skipIf (s.pressed (s.readV x)))

/-- `ExA1` (R121). -/
def execExA1 (x : RegIdx) (s : State) : Result := .next (s.skipIf (!s.pressed (s.readV x)))

/-- `Fx07` (R122): DT before this step's timer check. -/
def execFx07 (x : RegIdx) (s : State) : Result := .next (s.writeV x s.dt)

/-- `Fx0A` (R123): the wait begins; the key event of R137 ends it. -/
def execFx0A (x : RegIdx) (s : State) : Result := .next (s.setStatus (.waitingForKey x))

/-- `Fx15` (R124). -/
def execFx15 (x : RegIdx) (s : State) : Result := .next (s.setDT (s.readV x))

/-- `Fx18` (R125). -/
def execFx18 (x : RegIdx) (s : State) : Result := .next (s.setST (s.readV x))

end Sys2Proof.Machine
end

