-- ==== Sys2Proof/Machine/Iterate.lean ====
section
/-! DEFINITION. One step of the engine (40_step.md R65 to R72) and one iteration of the driving loop (60_exceptions.md
R133 to R139). -/

namespace Sys2Proof.Machine

/-! ### The step of the engine -/

/-- UNDEF (R70): the word raises UnknownOpcode and has no other effect. -/
def execUndef (s : State) : Result := .next (s.raise .unknownOpcode)

/-- The execute phase of a fetched word (R69): the matched pattern's rule, or R70 if none matches. -/
def executeWord (word : Word) (s : State) : Result :=
  match decodeWord word with
  | .ok i => exec i s
  | .error _ => execUndef s

/-- `Step` (R72): range check, fetch, advance, execute, timer check. -/
def engineStep (s : State) : Result :=
  if s.pcInRange then
    match s.readWord s.pc.toNat with
    | .ok word => thenNext (executeWord word s.advance) State.timerCheck
    | .error r => .fault r
  else .next (s.raise .pcOutOfBounds)

/-! ### The iteration of the driving loop -/

/-- The inputs of the next iteration: the soonest the environment has settled, or a free value (R135, log 3). -/
def State.nextInputs (s : State) : Inputs :=
  match s.schedule with
  | [] => Config.freeInputs s.drawn
  | inp :: _ => inp

/-- Samples the inputs of the iteration that begins. -/
def State.sampleInputs (s : State) : State :=
  match s.schedule with
  | [] => { s with inputs := s.nextInputs, drawn := s.drawn + 1 }
  | _ :: rest => { s with inputs := s.nextInputs, schedule := rest }

/-- A key-down edge in `WaitingForKey(r)` (R137): the first edge's key number goes to V[r] and the engine runs again; with
no edge the wait goes on. DESIGN CHOICE (log 13): the value written is the spec's D10. -/
def State.keyEvent (s : State) (r : RegIdx) : State :=
  match s.inputs.edges with
  | [] => s
  | k :: _ => (s.writeV r (BitVec.ofNat 8 k.val)).setStatus .running

/-- The loop has stopped: no step, no event, no presentation, no inputs taken (R139). DESIGN CHOICE (log 4): the model's
step goes on answering the same state. -/
def State.stopped (s : State) : State := s.setPresent false

/-- `Iterate` (R135) on the inputs sampled: quit first (R133, R136), then the key event or one step. -/
def iterate (s : State) : Result :=
  if s.inputs.quit then .next (s.halt.setPresent false)
  else
    match s.status with
    | .waitingForKey r => .next ((s.keyEvent r).setPresent false)
    | .running => thenNext (engineStep s) (·.setPresent true)
    | .halted => .next s.stopped

/-- One pass of the driving loop: when `Halted` the loop has stopped and `Iterate` is not applied (R135, R139). -/
def loopPass (s : State) : Result :=
  if s.status = .halted then .next s.stopped else iterate s.sampleInputs

/-! ### Placing an instruction for the next step (log 6) -/

/-- The next iteration's inputs with no quit, so that the iteration makes its step: a quiet input where the environment
has settled none. -/
def State.withoutQuit (s : State) : State :=
  match s.schedule with
  | [] => { s with schedule := [quietInputs] }
  | inp :: rest => { s with schedule := { inp with quit := false } :: rest }

/-- The engine running and pc where a step fetches: an address in range stays, another becomes 0x200 (R66, R164). -/
def State.readyToFetch (s : State) : State :=
  if s.pcInRange then s.setStatus .running else (s.setStatus .running).setPc (BitVec.ofNat 16 progBase)

/-- Stores a word at pc, high byte first, and has the next iteration run it. -/
def State.placeWord (s : State) (word : Word) : State :=
  let r := s.withoutQuit.readyToFetch
  r.writeBytes r.pc.toNat [hiByte word, loByte word]

end Sys2Proof.Machine
end

