-- ==== Sys2Proof/Machine/Step.lean ====
section
/-! DEFINITION. The machine's one step: one iteration of the driving loop (R135), which is at most one step of the
engine (R65). What it does stands in Machine/Iterate.lean. -/

namespace Sys2Proof.Machine

/-- One iteration of the driving loop. -/
def step (s : State) : Host.Outcome State Fault Refusal := loopPass s

/-- `s` with an instruction, given as the opcode table numbers its bits, stored where the next step fetches, the engine
running and no quit in the next inputs, so that the next step runs exactly it (log 6). -/
def State.withFetchWord (s : State) (nbits w : Nat) : State := s.placeWord (tableWord nbits w)

end Sys2Proof.Machine
end

