-- ==== Sys2Proof/Machine/Load.lean ====
section
/-! DEFINITION. Program load (70_reset_and_hazards.md R160 to R164), the environment's first action (R152). -/

namespace Sys2Proof.Machine

/-- The launch premise of R162: a ROM has at most 0xCA0 bytes. -/
def romFits (rom : List Byte) : Bool := decide (rom.length ≤ progMax)

/-- `load` (R161): copies the ROM to 0x200 and on, and changes nothing else. A longer ROM is refused (R162). DESIGN CHOICE
(log 16): the refusal is the spec's D15. -/
def load (rom : List Byte) (s : State) : Result :=
  if romFits rom then .next (s.writeBytes progBase rom) else .refused (.romTooLong rom.length)

/-- `init` and then `load`: the state before the first iteration (R152, R164). A load failure is a run with an empty
ROM (R163, D16). -/
def boot (cfg : Config) (rom : List Byte) : Result := load rom (State.init cfg)

end Sys2Proof.Machine
end

