-- ==== Sys2Proof/Machine/SpriteBytes.lean ====
section
/-! DEFINITION. The byte-level form of a sprite row (R112), which the spec says is equivalent to the pixel loop of R111.
The machine runs the pixel loop; this form is for claims. -/

namespace Sys2Proof.Machine

/-- XORs a mask into the byte of index c of a row; an index of 8 or more is the clipped part and is not touched (R112). -/
def xorRowByte (row c : Nat) (mask : Byte) (acc : State × Bool) : State × Bool :=
  if c < 8 then
    let a := ea (fbBase + 8 * row + c)
    (acc.1.writeByte a (acc.1.readByte a ^^^ mask), acc.2 || (acc.1.readByte a &&& mask != 0))
  else acc

/-- One sprite row by bytes: `s >> sh` at byte c0 and, when sh > 0, `s << (8 - sh)` at byte c0 + 1 (R112). -/
def drawRowBytes (vx row : Nat) (sprite : Byte) (acc : State × Bool) : State × Bool :=
  if row < rows then
    let left := xorRowByte row (vx / 8) (sprite >>> (vx % 8)) acc
    if 0 < vx % 8 then xorRowByte row (vx / 8 + 1) (sprite <<< (8 - vx % 8)) left else left
  else acc

/-- The first n sprite rows by bytes, each sprite byte read when its row is drawn (R111, R112). -/
def drawSpriteBytes (vx vy base : Nat) (s : State) : Nat → State × Bool
  | 0 => (s, false)
  | n + 1 =>
    let acc := drawSpriteBytes vx vy base s n
    drawRowBytes vx (vy + n) (acc.1.readByte (ea (base + n))) acc

end Sys2Proof.Machine
end

