-- ==== Sys2Proof/WellFormed.lean ====
section
/-! DEFINITION. What is well formed. An operand of `Instr` cannot be out of range: its type has the field's width and R53
makes every value of every field legal, so the checks are on the raw data the machine is given: an instruction word
(R54, R56), the parameters (R4) and the ROM (R162). -/

namespace Sys2Proof

/-- One row of the opcode map of R54: a word is an instance when `word & mask = pattern`. -/
structure OpRow where
  mnemonic : String
  pattern : Word
  mask : Word
deriving DecidableEq, Repr

/-- The rows of R54 whose major opcode alone selects them, or with w = 0. -/
def opRowsMajor : List OpRow :=
  [ ⟨"00E0", 0x00E0, 0xFFFF⟩, ⟨"00EE", 0x00EE, 0xFFFF⟩, ⟨"1nnn", 0x1000, 0xF000⟩, ⟨"2nnn", 0x2000, 0xF000⟩,
    ⟨"3xkk", 0x3000, 0xF000⟩, ⟨"4xkk", 0x4000, 0xF000⟩, ⟨"6xkk", 0x6000, 0xF000⟩, ⟨"7xkk", 0x7000, 0xF000⟩,
    ⟨"Annn", 0xA000, 0xF000⟩, ⟨"Bnnn", 0xB000, 0xF000⟩, ⟨"Cxkk", 0xC000, 0xF000⟩, ⟨"Dxyn", 0xD000, 0xF000⟩ ]

/-- The rows of R54 in format XY. -/
def opRowsXY : List OpRow :=
  [ ⟨"5xy0", 0x5000, 0xF00F⟩, ⟨"8xy0", 0x8000, 0xF00F⟩, ⟨"8xy1", 0x8001, 0xF00F⟩, ⟨"8xy2", 0x8002, 0xF00F⟩,
    ⟨"8xy3", 0x8003, 0xF00F⟩, ⟨"8xy4", 0x8004, 0xF00F⟩, ⟨"8xy5", 0x8005, 0xF00F⟩, ⟨"8xy6", 0x8006, 0xF00F⟩,
    ⟨"8xy7", 0x8007, 0xF00F⟩, ⟨"8xyE", 0x800E, 0xF00F⟩, ⟨"9xy0", 0x9000, 0xF00F⟩ ]

/-- The rows of R54 in format X. -/
def opRowsX : List OpRow :=
  [ ⟨"Ex9E", 0xE09E, 0xF0FF⟩, ⟨"ExA1", 0xE0A1, 0xF0FF⟩, ⟨"Fx07", 0xF007, 0xF0FF⟩, ⟨"Fx0A", 0xF00A, 0xF0FF⟩,
    ⟨"Fx15", 0xF015, 0xF0FF⟩, ⟨"Fx18", 0xF018, 0xF0FF⟩, ⟨"Fx1E", 0xF01E, 0xF0FF⟩, ⟨"Fx29", 0xF029, 0xF0FF⟩,
    ⟨"Fx33", 0xF033, 0xF0FF⟩, ⟨"Fx55", 0xF055, 0xF0FF⟩, ⟨"Fx65", 0xF065, 0xF0FF⟩ ]

/-- The 34 rows of the opcode map (R54). -/
def opcodeTable : List OpRow := opRowsMajor ++ opRowsXY ++ opRowsX

/-- The row selects the word (R54). -/
def OpRow.selects (r : OpRow) (w : Word) : Bool := w &&& r.mask == r.pattern

/-- A well-formed instruction word: an instance of one of the 34 patterns (R54). Any other word is UNDEF (R56). -/
def wordDefined (w : Word) : Bool := opcodeTable.any (·.selects w)

/-- Well-formed parameters: `STACK_DEPTH` is a natural number of at least 1 (R4). -/
def Config.wf (c : Config) : Bool := decide (1 ≤ c.stackDepth)

end Sys2Proof
end

