-- ==== Sys2Proof/Safety.lean ====
section
/-! DEFINITION. The terms claims are stated in: the invariant of R23, what a change leaves alone, and the relations
between two states that differ in one thing. -/

namespace Sys2Proof.Machine

/-! ### The invariant (R23) -/

/-- What holds after reset and after every iteration (R23). That registers, timers, memory bytes and the register index
of a wait are in range is in their types. The bound on pc is 0x10FE (R14), which `Bnnn` reaches. -/
structure Inv (s : State) : Prop where
  /-- Memory is in its canonical form: only bytes of the 4096, each listed once (R18, log 22). -/
  memory : Memory.wf s.cfg.font s.mem = true
  /-- `len(stack) ≤ STACK_DEPTH` (R15, R23). -/
  stackBound : s.stack.length ≤ s.cfg.stackDepth
  /-- Every stack entry is at most 0x1000 (R23). -/
  stackEntries : ∀ a ∈ s.stack, a.toNat ≤ 0x1000
  /-- `pc ≤ 0x10FE` (R14, R23). -/
  pcBound : s.pc.toNat ≤ 0x10FE
  /-- `STACK_DEPTH ≥ 1` (R4). -/
  config : s.cfg.wf = true

/-! ### Frames -/

/-- The eight items of the architectural state (R10). -/
inductive Item where
  | mem | v | i | pc | stack | dt | st | status
deriving DecidableEq, Repr

/-- The item has the same contents in both states: every byte as it reads, every register. -/
def Item.Same : Item → State → State → Prop
  | .mem, s, t => ∀ a : Addr, t.readByte a = s.readByte a
  | .v, s, t => ∀ r : RegIdx, t.readV r = s.readV r
  | .i, s, t => t.i = s.i
  | .pc, s, t => t.pc = s.pc
  | .stack, s, t => t.stack = s.stack
  | .dt, s, t => t.dt = s.dt
  | .st, s, t => t.st = s.st
  | .status, s, t => t.status = s.status

/-- Parameters, the inputs of the iteration, the settled inputs and the output are the same. -/
structure SameSurroundings (s t : State) : Prop where
  cfg : t.cfg = s.cfg
  inputs : t.inputs = s.inputs
  schedule : t.schedule = s.schedule
  drawn : t.drawn = s.drawn
  present : t.present = s.present

/-- Going from s to t changes nothing but, at most, the items listed. -/
def OnlyChanges (items : List Item) (s t : State) : Prop :=
  (∀ it : Item, it ∉ items → it.Same s t) ∧ SameSurroundings s t

/-- Every item of R10 has the same contents, whatever became of the surroundings. -/
def SameArchitecture (s t : State) : Prop := ∀ it : Item, it.Same s t

/-- The registers outside a set are unchanged. -/
def KeepsRegsExcept (changed : List RegIdx) (s t : State) : Prop :=
  ∀ r : RegIdx, r ∉ changed → t.readV r = s.readV r

/-- The bytes outside a set of addresses are unchanged. -/
def KeepsBytesExcept (changed : Addr → Prop) (s t : State) : Prop :=
  ∀ a : Addr, ¬ changed a → t.readByte a = s.readByte a

/-- The word of the instruction is an instance of the pattern under the mask (R54). -/
def EncodedAs (i : Instr) (pattern mask : Word) : Prop := encode i &&& mask = pattern

/-- The address is one of the 256 bytes of the frame buffer (R34). -/
def InFrameBuffer (a : Addr) : Prop := fbBase ≤ a.toNat

/-- The sprite of an n-row draw at column vx and row vy has a set bit at a place of the grid, as the sprite's bytes read
in s (R111). -/
def spriteBit (s : State) (vx vy n col row : Nat) : Bool :=
  decide (vy ≤ row ∧ row < vy + n ∧ vx ≤ col ∧ col < vx + 8) &&
    (s.readByte (s.baseAddr (row - vy))).getLsbD (7 - (col - vx))

/-! ### Steps -/

/-- A step of the engine is due: the CORE runs, and the environment does not ask for the end (R65, R133). -/
structure StepDue (s : State) : Prop where
  running : s.status = .running
  noQuit : s.nextInputs.quit = false

/-- The word at pc, high byte first (R38, R50). -/
def State.fetched (s : State) : Word :=
  wordOfBytes (s.readByte (BitVec.ofNat 12 s.pc.toNat)) (s.readByte (BitVec.ofNat 12 (s.pc.toNat + 1)))

/-- The state as the execute phase of the next step finds it: inputs sampled, pc advanced (R68, R135). -/
def State.atExecute (s : State) : State := s.sampleInputs.advance

end Sys2Proof.Machine

namespace Sys2Proof

/-! ### What an instruction may touch -/

/-- The destination register an instruction names, where it has one: V[x] of the instructions that write V[x] as an
ordinary result. -/
def Instr.dest : Instr → List RegIdx
  | .op6xkk x _ | .op7xkk x _ | .opCxkk x _ => [x]
  | .op8xy0 x _ | .op8xy1 x _ | .op8xy2 x _ | .op8xy3 x _ | .op8xy4 x _ => [x]
  | .op8xy5 x _ | .op8xy6 x _ | .op8xy7 x _ | .op8xyE x _ => [x]
  | .opFx07 x => [x]
  | .opFx65 x => Machine.regBlock x
  | .op00E0 | .op00EE | .op1nnn _ | .op2nnn _ | .op3xkk _ _ | .op4xkk _ _ | .op5xy0 _ _ | .op9xy0 _ _ => []
  | .opAnnn _ | .opBnnn _ | .opDxyn _ _ _ | .opEx9E _ | .opExA1 _ | .opFx0A _ | .opFx15 _ | .opFx18 _ => []
  | .opFx1E _ | .opFx29 _ | .opFx33 _ | .opFx55 _ => []

/-- The six instructions that write VF as a flag (R12). -/
def Instr.writesFlag : Instr → Bool
  | .op8xy4 _ _ | .op8xy5 _ _ | .op8xy6 _ _ | .op8xy7 _ _ | .op8xyE _ _ | .opDxyn _ _ _ => true
  | .op00E0 | .op00EE | .op1nnn _ | .op2nnn _ | .op3xkk _ _ | .op4xkk _ _ | .op5xy0 _ _ | .op9xy0 _ _ => false
  | .op6xkk _ _ | .op7xkk _ _ | .op8xy0 _ _ | .op8xy1 _ _ | .op8xy2 _ _ | .op8xy3 _ _ | .opAnnn _ | .opBnnn _ => false
  | .opCxkk _ _ | .opEx9E _ | .opExA1 _ | .opFx07 _ | .opFx0A _ | .opFx15 _ | .opFx18 _ | .opFx1E _ => false
  | .opFx29 _ | .opFx33 _ | .opFx55 _ | .opFx65 _ => false

/-- The four instructions that write memory (R46). -/
def Instr.storesMemory : Instr → Bool
  | .op00E0 | .opDxyn _ _ _ | .opFx33 _ | .opFx55 _ => true
  | .op00EE | .op1nnn _ | .op2nnn _ | .op3xkk _ _ | .op4xkk _ _ | .op5xy0 _ _ | .op9xy0 _ _ => false
  | .op6xkk _ _ | .op7xkk _ _ | .op8xy0 _ _ | .op8xy1 _ _ | .op8xy2 _ _ | .op8xy3 _ _ | .op8xy4 _ _ => false
  | .op8xy5 _ _ | .op8xy6 _ _ | .op8xy7 _ _ | .op8xyE _ _ | .opAnnn _ | .opBnnn _ | .opCxkk _ _ => false
  | .opEx9E _ | .opExA1 _ | .opFx07 _ | .opFx0A _ | .opFx15 _ | .opFx18 _ | .opFx1E _ => false
  | .opFx29 _ | .opFx65 _ => false

/-- The two instructions that read memory in their execute phase as data (R46); `Dxyn` also reads what it draws over. -/
def Instr.loadsMemory : Instr → Bool
  | .opDxyn _ _ _ | .opFx65 _ => true
  | .op00E0 | .op00EE | .op1nnn _ | .op2nnn _ | .op3xkk _ _ | .op4xkk _ _ | .op5xy0 _ _ | .op9xy0 _ _ => false
  | .op6xkk _ _ | .op7xkk _ _ | .op8xy0 _ _ | .op8xy1 _ _ | .op8xy2 _ _ | .op8xy3 _ _ | .op8xy4 _ _ => false
  | .op8xy5 _ _ | .op8xy6 _ _ | .op8xy7 _ _ | .op8xyE _ _ | .opAnnn _ | .opBnnn _ | .opCxkk _ _ => false
  | .opEx9E _ | .opExA1 _ | .opFx07 _ | .opFx0A _ | .opFx15 _ | .opFx18 _ | .opFx1E _ => false
  | .opFx29 _ | .opFx33 _ | .opFx55 _ => false

/-- The three instructions whose execute phase reads `keys` or `rnd` (R65). -/
def Instr.readsInputs : Instr → Bool
  | .opCxkk _ _ | .opEx9E _ | .opExA1 _ => true
  | .op00E0 | .op00EE | .op1nnn _ | .op2nnn _ | .op3xkk _ _ | .op4xkk _ _ | .op5xy0 _ _ | .op9xy0 _ _ => false
  | .op6xkk _ _ | .op7xkk _ _ | .op8xy0 _ _ | .op8xy1 _ _ | .op8xy2 _ _ | .op8xy3 _ _ | .op8xy4 _ _ => false
  | .op8xy5 _ _ | .op8xy6 _ _ | .op8xy7 _ _ | .op8xyE _ _ | .opAnnn _ | .opBnnn _ | .opDxyn _ _ _ => false
  | .opFx07 _ | .opFx0A _ | .opFx15 _ | .opFx18 _ | .opFx1E _ | .opFx29 _ | .opFx33 _ => false
  | .opFx55 _ | .opFx65 _ => false

end Sys2Proof
end

