-- ==== Sys2Proof/Certificates/Slice0/Obligations.lean ====
section
/-! DEFINITION. The statements for the provers. Each docstring names the rule or the spec's decision it formalises. -/

open Sys2Proof Sys2Proof.Machine

/-! ### The iteration and the step -/

/-- R65, R67 to R69, R71, R72: when a step is due and the word at pc decodes to i, the step is exec of i on the state with
the inputs sampled and pc advanced by 2, then the timer check, and the iteration presents. The state exec is given
differs from s in nothing else. That the timer check and the presentation also follow an instruction that halts is the
spec's decisions D13 (log 14) and D23 (log 21). -/
def Obligations.StepRunsDecodedInstruction : Prop :=
  ∀ (s : State) (i : Instr), StepDue s → s.pc.toNat < 0xFFF → decodeWord s.fetched = .ok i →
    step s = thenNext (exec i s.atExecute) (fun t => t.timerCheck.setPresent true) ∧
    s.atExecute.pc.toNat = s.pc.toNat + 2 ∧ s.atExecute.inputs = s.nextInputs ∧ s.atExecute.cfg = s.cfg ∧
    ∀ it : Item, it ≠ .pc → it.Same s s.atExecute

/-- R70, R151: a word that no pattern matches advances pc and gets its timer check; nothing else changes, but that the
engine halts when STRICT is true. The STRICT half is the spec's decision D3 (log 17), the timer check after it D13
(log 14). -/
def Obligations.UndefinedWordDoesNothingOrHalts : Prop :=
  ∀ (s : State) (e : DecodeReject), StepDue s → s.pc.toNat < 0xFFF → decodeWord s.fetched = .error e →
    ∃ t, step s = .next t ∧ t.pc.toNat = s.pc.toNat + 2 ∧
      t.status = (if s.cfg.strict then .halted else .running) ∧
      t.dt.toNat = (if s.nextInputs.tickDue then s.dt.toNat - 1 else s.dt.toNat) ∧
      t.st.toNat = (if s.nextInputs.tickDue then s.st.toNat - 1 else s.st.toNat) ∧
      (∀ it ∈ [Item.mem, Item.v, Item.i, Item.stack], it.Same s t)

/-- R66: the step proceeds exactly when pc ≤ 0xFFE; otherwise the engine halts, nothing is fetched, and pc and every
other item of state, the timers among them, keep their values. That the timer check follows every word fetched, a
halting one included, and not the range check's halt is the spec's decision D13 (log 14), the presentation after a
halting step D23 (log 21). -/
def Obligations.OutOfRangePcHalts : Prop :=
  ∀ s : State, StepDue s →
    (s.pc.toNat ≤ 0xFFE →
      step s = thenNext (executeWord s.fetched s.atExecute) (fun t => t.timerCheck.setPresent true)) ∧
    (0xFFF ≤ s.pc.toNat →
      ∃ t, step s = .next t ∧ t.status = .halted ∧ ∀ it : Item, it ≠ .status → it.Same s t)

/-- R72 ("a total function …: it always completes") and R19, R151 (the parameters are constant for a run): every state has
a next state, with the same parameters. On a halted state this rests on log 4. -/
def Obligations.StepAlwaysCompletesWithSameParameters : Prop :=
  ∀ s : State, ∃ t, step s = .next t ∧ t.cfg = s.cfg

/-- R23, an inference the spec marks as derived: the invariant is kept by every step from every state that has it. -/
def Obligations.StepKeepsInvariant : Prop :=
  ∀ s t : State, Machine.Inv s → step s = .next t → Machine.Inv t

/-- R23: the invariant holds after reset, and after `init` with any legal parameters and `load` of any ROM that fits. -/
def Obligations.BootMeetsInvariant : Prop :=
  Machine.Inv State.reset ∧
  ∀ (cfg : Config) (rom : List Byte) (t : State), cfg.wf = true → boot cfg rom = .next t → Machine.Inv t

/-- R136: the quit signal halts from `Running` and from `WaitingForKey`, before anything else, and changes no other state:
no step, no key write, no timer check, no presentation. -/
def Obligations.QuitHaltsAndChangesNothingElse : Prop :=
  ∀ s : State, s.status ≠ .halted → s.nextInputs.quit = true →
    ∃ t, step s = .next t ∧ t.status = .halted ∧ t.present = false ∧ ∀ it : Item, it ≠ .status → it.Same s t

/-- R137, R134: in `WaitingForKey(r)` with no quit, the first key-down edge writes its key number to V[r] and the engine
runs again; with no edge nothing changes. No step is made and nothing is presented. The value written and the fate of
the other edges are the spec's decision D10 (log 13). -/
def Obligations.KeyEdgeEndsTheWait : Prop :=
  ∀ (s : State) (r : RegIdx), s.status = .waitingForKey r → s.nextInputs.quit = false →
    (∀ k rest, s.nextInputs.edges = k :: rest →
      ∃ t, step s = .next t ∧ (t.readV r).toNat = k.val ∧ KeepsRegsExcept [r] s t ∧ t.status = .running ∧
        t.present = false ∧ ∀ it : Item, it ≠ .v → it ≠ .status → it.Same s t) ∧
    (s.nextInputs.edges = [] → ∃ t, step s = .next t ∧ SameArchitecture s t ∧ t.present = false)

/-- R139: from `Halted` no item of R10 ever changes, nothing is presented and no inputs are taken. That the model's step
answers at all is its own choice (log 4); the spec makes no iteration there. -/
def Obligations.HaltedIsTerminal : Prop :=
  ∀ s : State, s.status = .halted →
    ∃ t, step s = .next t ∧ SameArchitecture s t ∧ t.present = false ∧ t.schedule = s.schedule ∧ t.drawn = s.drawn

/-- R134, R170: from a state that is not halted, exactly these events halt the engine: quit; pc out of range; `00EE` on
an empty stack; and when STRICT is true an undefined word or `2nnn` on a full stack (D2, D3, log 17). -/
def Obligations.HaltHasExactlyTheseCauses : Prop :=
  ∀ s t : State, s.status ≠ .halted → step s = .next t →
    (t.status = .halted ↔
      s.nextInputs.quit = true ∨
      (s.status = .running ∧
        (0xFFF ≤ s.pc.toNat ∨
         (s.pc.toNat < 0xFFF ∧
           ((s.fetched = 0x00EE ∧ s.stack = []) ∨
            (s.cfg.strict = true ∧
              (wordDefined s.fetched = false ∨
               (s.fetched.toNat / 0x1000 = 2 ∧ s.stack.length = s.cfg.stackDepth))))))))

/-- R134: after an iteration the engine waits for register x exactly when it went on waiting with no quit and no edge, or
when the step executed `Fx0A` (the word 0xF00A + 0x100·x, R123). -/
def Obligations.WaitHasExactlyTheseCauses : Prop :=
  ∀ (s t : State) (x : RegIdx), step s = .next t →
    (t.status = .waitingForKey x ↔
      s.nextInputs.quit = false ∧
      ((s.status = .waitingForKey x ∧ s.nextInputs.edges = []) ∨
       (s.status = .running ∧ s.pc.toNat < 0xFFF ∧ s.fetched.toNat = 0xF00A + 0x100 * x.val)))

/-- R143: with `tick_due` true each timer counts down by exactly 1, independently, and a timer at 0 stays 0; with it
false the timers are left alone. Nothing else changes. -/
def Obligations.TickCountsEachTimerDownOnce : Prop :=
  ∀ s : State,
    (s.inputs.tickDue = true →
      (0 < s.dt.toNat → s.timerCheck.dt.toNat + 1 = s.dt.toNat) ∧ (s.dt.toNat = 0 → s.timerCheck.dt.toNat = 0) ∧
      (0 < s.st.toNat → s.timerCheck.st.toNat + 1 = s.st.toNat) ∧ (s.st.toNat = 0 → s.timerCheck.st.toNat = 0)) ∧
    (s.inputs.tickDue = false → s.timerCheck = s) ∧ OnlyChanges [.dt, .st] s s.timerCheck

/-- R71, R145: the timers stand still in an iteration that makes no fetch (a wait, a quit, a halt by the range check,
a halted engine); in a step that fetched a word each timer that the word does not write counts down once if
`tick_due`, and otherwise keeps its value. When the check is made is the spec's decision D13 (log 14). -/
def Obligations.TimersCountOnlyInTheTimerCheck : Prop :=
  ∀ s t : State, step s = .next t →
    (¬ (StepDue s ∧ s.pc.toNat < 0xFFF) → t.dt = s.dt ∧ t.st = s.st) ∧
    (StepDue s → s.pc.toNat < 0xFFF →
      ((∀ x, decodeWord s.fetched ≠ .ok (.opFx15 x)) →
        t.dt.toNat = if s.nextInputs.tickDue then s.dt.toNat - 1 else s.dt.toNat) ∧
      ((∀ x, decodeWord s.fetched ≠ .ok (.opFx18 x)) →
        t.st.toNat = if s.nextInputs.tickDue then s.st.toNat - 1 else s.st.toNat))

/-- R135, R147: the frame buffer is presented after exactly the iterations that made a step, one that halted included (the
spec's decision D23, log 21). -/
def Obligations.PresentsExactlyAfterAStep : Prop :=
  ∀ s t : State, step s = .next t → (t.present = true ↔ StepDue s)

/-- R138: key-down edges polled while the engine runs have no effect on any state of the CORE (D10, log 13): the step of a
running state is the same whatever edges its iteration brings. -/
def Obligations.EdgesWhileRunningAreDropped : Prop :=
  ∀ (s : State) (inp : Inputs) (rest : List Inputs) (edges : List Key),
    s.status = .running → s.schedule = inp :: rest →
    ∃ t u, step s = .next t ∧ step { s with schedule := { inp with edges := edges } :: rest } = .next u ∧
      SameArchitecture t u ∧ t.present = u.present

/-- R65: an instruction other than `Ex9E`, `ExA1`, `Cxkk` does not depend on `keys` or `rnd`. -/
def Obligations.OnlyThreeInstructionsReadKeysOrRandom : Prop :=
  ∀ (i : Instr) (s : State) (keys : Vector Bool 16) (rnd : Byte), i.readsInputs = false →
    ∃ t u, exec i s = .next t ∧ exec i { s with inputs := { s.inputs with keys := keys, rnd := rnd } } = .next u ∧
      SameArchitecture t u

/-! ### Who writes what -/

/-- R12 (with D21 for the logic operations, log 19): a register changes only if the instruction names it as its
destination or, for VF, is one of the six flag instructions, which leave 0 or 1 there. -/
def Obligations.RegistersChangeOnlyAsDestinationOrFlag : Prop :=
  ∀ (i : Instr) (s t : State), exec i s = .next t →
    KeepsRegsExcept (i.dest ++ if i.writesFlag then [vf] else []) s t ∧
    (i.writesFlag = true → t.readV vf = 0 ∨ t.readV vf = 1)

/-- R46: only `00E0`, `Dxyn`, `Fx33` and `Fx55` write memory, and the first two write only the frame buffer (for `Dxyn`
by the spec's clipping D5, log 8). -/
def Obligations.MemoryChangesOnlyByFourInstructions : Prop :=
  ∀ (i : Instr) (s t : State), exec i s = .next t →
    (i.storesMemory = false → Item.mem.Same s t) ∧
    (i = .op00E0 ∨ (∃ x y n, i = .opDxyn x y n) → KeepsBytesExcept InFrameBuffer s t)

/-- R46: an instruction other than `Dxyn` and `Fx65` does not depend on the contents of memory: from two states that differ
in memory alone it leads to states that agree in every other item. -/
def Obligations.MemoryIsReadOnlyByTwoInstructions : Prop :=
  ∀ (i : Instr) (s : State) (m : Memory), i.loadsMemory = false →
    ∃ t u, exec i s = .next t ∧ exec i { s with mem := m } = .next u ∧ ∀ it : Item, it ≠ .mem → it.Same t u

/-- R13, R15, R16, R17: I is written only by `Annn`, `Fx1E`, `Fx29`; the stack only by `2nnn` and `00EE`; DT only by
`Fx15` and ST only by `Fx18` (beside the tick); the execution state only by `Fx0A`, `00EE` and `2nnn`; and no
instruction touches the parameters, the inputs or the output. -/
def Obligations.ControlStateHasFewWriters : Prop :=
  ∀ (i : Instr) (s t : State), exec i s = .next t →
    ((∀ nnn, i ≠ .opAnnn nnn) → (∀ x, i ≠ .opFx1E x) → (∀ x, i ≠ .opFx29 x) → t.i = s.i) ∧
    ((∀ nnn, i ≠ .op2nnn nnn) → i ≠ .op00EE → t.stack = s.stack) ∧
    ((∀ x, i ≠ .opFx15 x) → t.dt = s.dt) ∧ ((∀ x, i ≠ .opFx18 x) → t.st = s.st) ∧
    ((∀ x, i ≠ .opFx0A x) → (∀ nnn, i ≠ .op2nnn nnn) → i ≠ .op00EE → t.status = s.status) ∧
    SameSurroundings s t

/-! ### Memory -/

/-- R38: below 0xFFF the two-byte read gives the byte at addr above the byte at addr + 1, and both addresses lie in the
4096 bytes, so that the fetch never wraps and never uses `ea`. -/
def Obligations.FetchIsBigEndianAndInsideMemory : Prop :=
  ∀ (s : State) (addr : Nat), addr < 0xFFF →
    (BitVec.ofNat 12 addr).toNat = addr ∧ (BitVec.ofNat 12 (addr + 1)).toNat = addr + 1 ∧
    ∃ word : Word, s.readWord addr = .ok word ∧
      word.toNat / 0x100 = (s.readByte (BitVec.ofNat 12 addr)).toNat ∧
      word.toNat % 0x100 = (s.readByte (BitVec.ofNat 12 (addr + 1))).toNat

/-- The model's canonical form of memory (log 22) determines the list: two canonical memories that read alike at every
address of the 4096 are the same data. -/
def Obligations.CanonicalMemoriesThatReadAlikeAreEqual : Prop :=
  ∀ (font : Vector Byte 80) (m n : Memory), Memory.wf font m = true → Memory.wf font n = true →
    (∀ a, a < 0x1000 → Memory.read font m a = Memory.read font n a) → m = n

/-- R21, R160, for any parameters: after `init` memory holds FONT at 0x050 to 0x09F and zero elsewhere, V0 to VF, I, DT
and ST are 0, the stack is empty, pc is 0x200 and the engine runs; reset is `init` with the defaults of R4. -/
def Obligations.InitLeavesTheResetValues : Prop :=
  ∀ cfg : Config,
    (∀ g : Nat, (h : g < 80) → (State.init cfg).readByte (BitVec.ofNat 12 (0x050 + g)) = cfg.font[g]) ∧
    (∀ a : Addr, a.toNat < 0x050 ∨ 0x0A0 ≤ a.toNat → (State.init cfg).readByte a = 0) ∧
    (∀ r, (State.init cfg).readV r = 0) ∧ (State.init cfg).i = 0 ∧ (State.init cfg).dt = 0 ∧
    (State.init cfg).st = 0 ∧ (State.init cfg).stack = [] ∧ (State.init cfg).pc.toNat = 0x200 ∧
    (State.init cfg).status = .running ∧ (State.init cfg).cfg = cfg ∧
    State.reset = State.init defaultConfig ∧ defaultConfig.stackDepth = 24 ∧ defaultConfig.strict = false

/-- R161: `load` puts byte k of a ROM at 0x200 + k and changes nothing else, so that an empty ROM changes nothing; after
`init` the rest of the program region stays zero. -/
def Obligations.LoadCopiesTheRom : Prop :=
  ∀ (rom : List Byte), rom.length ≤ 0xCA0 →
    (∀ s : State, ∃ t, load rom s = .next t ∧
      (∀ (k : Nat) (h : k < rom.length), t.readByte (BitVec.ofNat 12 (0x200 + k)) = rom[k]) ∧
      KeepsBytesExcept (fun a => 0x200 ≤ a.toNat ∧ a.toNat < 0x200 + rom.length) s t ∧ OnlyChanges [.mem] s t) ∧
    (∀ cfg : Config, ∃ t, load rom (State.init cfg) = .next t ∧
      ∀ a : Addr, 0x200 + rom.length ≤ a.toNat → t.readByte a = 0)

/-- R162: a longer ROM is refused, not truncated (the spec's decision D15, log 16). -/
def Obligations.LongRomIsRefused : Prop :=
  ∀ (rom : List Byte) (s : State), 0xCA0 < rom.length → load rom s = .refused (.romTooLong rom.length)

/-- R44, an inference the spec marks as derived: a store is seen by the next fetch. When `Fx55` stores registers q and
q + 1 over the two bytes at pc, the word fetched next is made of those registers (so x is at least 1). The stores at
addresses above 0xFFF that this takes in wrap by the spec's decision D4 (log 7). -/
def Obligations.NextFetchSeesTheStore : Prop :=
  ∀ (x : RegIdx) (s : State) (q : Nat) (hq : q + 1 ≤ x.val), s.pc.toNat < 0xFFF →
    (s.i.toNat + q) % 0x1000 = s.pc.toNat →
    ∃ t, exec (.opFx55 x) s = .next t ∧ t.pc = s.pc ∧
      t.fetched.toNat = (s.readV ⟨q, by omega⟩).toNat * 0x100 + (s.readV ⟨q + 1, by omega⟩).toNat

/-! ### Encoding -/

/-- R50 to R54: decoding the word of an instruction gives the instruction, and decoding its two bytes gives the
instruction and leaves the rest of the bytes. -/
def Obligations.DecodeOfEncodeIsTheInstruction : Prop :=
  ∀ (i : Instr) (rest : List Byte),
    decodeWord (encode i) = .ok i ∧ decodeBytes (encodeBytes i ++ rest) = .ok (i, rest)

/-- R54: every bit of a decoded word is accounted for: encoding what a word decodes to gives the word back. -/
def Obligations.EncodeOfDecodeIsTheWord : Prop :=
  ∀ (w : Word) (i : Instr), decodeWord w = .ok i → encode i = w

/-- R54, R56: the decoder accepts a word exactly when the word is an instance of one of the 34 patterns. That the rest is
UNDEF rests for `5xyz` and `9xyz` on the spec's decision D22 (log 20). -/
def Obligations.DecoderAcceptsExactlyTheMap : Prop :=
  opcodeTable.length = 34 ∧ ∀ w : Word, (∃ i, decodeWord w = .ok i) ↔ wordDefined w = true

/-- R55 (an inference of the spec's): no word is an instance of two rows of the opcode map. -/
def Obligations.OpcodeRowsAreDisjoint : Prop :=
  ∀ (w : Word) (p q : OpRow), p ∈ opcodeTable → q ∈ opcodeTable → p.selects w = true → q.selects w = true → p = q

/-- R51, R54, on words written out from the formats: one of each format, and one UNDEF word. -/
def Obligations.SampleWordsDecode : Prop :=
  decodeWord 0b0000000011101110 = .ok .op00EE ∧
  decodeWord 0b0001101010111100 = .ok (.op1nnn 0xABC) ∧
  decodeWord 0b0011101011111111 = .ok (.op3xkk 10 0xFF) ∧
  decodeWord 0b1000000100100100 = .ok (.op8xy4 1 2) ∧
  decodeWord 0b1101000000010101 = .ok (.opDxyn 0 1 5) ∧
  decodeWord 0b1111001101010101 = .ok (.opFx55 3) ∧
  decodeWord 0b0101101010110001 = .error .undef5xyz

/-! ### Control transfer -/

/-- R76: `pc = nnn`, absolute; nothing else changes. -/
def Obligations.JumpSetsPc : Prop :=
  ∀ (nnn : Addr) (s : State), EncodedAs (.op1nnn nnn) 0x1000 0xF000 ∧
    ∃ t, exec (.op1nnn nnn) s = .next t ∧ t.pc.toNat = nnn.toNat ∧ OnlyChanges [.pc] s t

/-- R77: `2nnn` pushes the advanced pc and jumps; on a full stack the call is dropped, or the engine halts when STRICT is
true (the spec's decision D2, log 17). -/
def Obligations.CallPushesAdvancedPc : Prop :=
  ∀ (nnn : Addr) (s : State), EncodedAs (.op2nnn nnn) 0x2000 0xF000 ∧
    (s.stack.length ≠ s.cfg.stackDepth →
      ∃ t, exec (.op2nnn nnn) s = .next t ∧ t.stack = s.pc :: s.stack ∧ t.pc.toNat = nnn.toNat ∧
        OnlyChanges [.pc, .stack] s t) ∧
    (s.stack.length = s.cfg.stackDepth →
      ∃ t, exec (.op2nnn nnn) s = .next t ∧ t.status = (if s.cfg.strict then .halted else s.status) ∧
        OnlyChanges [.status] s t)

/-- R75: `00EE` pops the newest return address into pc; on an empty stack the engine halts and nothing else changes (that
pc stays advanced is the spec's decision D17, log 17). -/
def Obligations.ReturnPopsPc : Prop :=
  ∀ s : State, encode .op00EE = 0x00EE ∧
    (∀ a rest, s.stack = a :: rest →
      ∃ t, exec .op00EE s = .next t ∧ t.pc = a ∧ t.stack = rest ∧ OnlyChanges [.pc, .stack] s t) ∧
    (s.stack = [] → ∃ t, exec .op00EE s = .next t ∧ t.status = .halted ∧ OnlyChanges [.status] s t)

/-- R78, R79: `3xkk` adds 2 to pc when Vx = kk, `4xkk` when Vx ≠ kk; nothing else changes. -/
def Obligations.SkipsOnImmediate : Prop :=
  ∀ (x : RegIdx) (kk : Byte) (s : State),
    EncodedAs (.op3xkk x kk) 0x3000 0xF000 ∧ EncodedAs (.op4xkk x kk) 0x4000 0xF000 ∧
    (∃ t, exec (.op3xkk x kk) s = .next t ∧
      t.pc = (if (s.readV x).toNat = kk.toNat then s.pc + 2 else s.pc) ∧ OnlyChanges [.pc] s t) ∧
    (∃ t, exec (.op4xkk x kk) s = .next t ∧
      t.pc = (if (s.readV x).toNat = kk.toNat then s.pc else s.pc + 2) ∧ OnlyChanges [.pc] s t)

/-- R80, R81: `5xy0` adds 2 to pc when Vx = Vy, `9xy0` when Vx ≠ Vy; nothing else changes. A word with w = 5 or 9 and
z ≠ 0 decodes to nothing (the spec's decision D22, log 20). -/
def Obligations.SkipsOnRegisters : Prop :=
  (∀ (x y : RegIdx) (s : State),
    EncodedAs (.op5xy0 x y) 0x5000 0xF00F ∧ EncodedAs (.op9xy0 x y) 0x9000 0xF00F ∧
    (∃ t, exec (.op5xy0 x y) s = .next t ∧
      t.pc = (if (s.readV x).toNat = (s.readV y).toNat then s.pc + 2 else s.pc) ∧ OnlyChanges [.pc] s t) ∧
    (∃ t, exec (.op9xy0 x y) s = .next t ∧
      t.pc = (if (s.readV x).toNat = (s.readV y).toNat then s.pc else s.pc + 2) ∧ OnlyChanges [.pc] s t)) ∧
  (∀ w : Word, w.toNat % 0x10 ≠ 0 →
    (w.toNat / 0x1000 = 5 → decodeWord w = .error .undef5xyz) ∧
    (w.toNat / 0x1000 = 9 → decodeWord w = .error .undef9xyz))

/-- R82: `pc = V0 + nnn`, not reduced modulo 0x1000 (the spec's decision D7, log 10). -/
def Obligations.IndexedJumpAddsV0 : Prop :=
  ∀ (nnn : Addr) (s : State), EncodedAs (.opBnnn nnn) 0xB000 0xF000 ∧
    ∃ t, exec (.opBnnn nnn) s = .next t ∧ t.pc.toNat = (s.readV 0).toNat + nnn.toNat ∧ OnlyChanges [.pc] s t

/-! ### Load, arithmetic, logic, shift, random -/

/-- R85, R87: `6xkk` puts kk and `8xy0` puts Vy into Vx; no other register and nothing else changes. -/
def Obligations.LoadsPutTheirSourceIntoVx : Prop :=
  ∀ (x y : RegIdx) (kk : Byte) (s : State),
    EncodedAs (.op6xkk x kk) 0x6000 0xF000 ∧ EncodedAs (.op8xy0 x y) 0x8000 0xF00F ∧
    (∃ t, exec (.op6xkk x kk) s = .next t ∧ t.readV x = kk ∧ KeepsRegsExcept [x] s t ∧ OnlyChanges [.v] s t) ∧
    (∃ t, exec (.op8xy0 x y) s = .next t ∧ t.readV x = s.readV y ∧ KeepsRegsExcept [x] s t ∧ OnlyChanges [.v] s t)

/-- R86: `Vx = (Vx + kk) mod 256`, and VF is no flag here. -/
def Obligations.AddImmediateWrapsWithoutFlag : Prop :=
  ∀ (x : RegIdx) (kk : Byte) (s : State), EncodedAs (.op7xkk x kk) 0x7000 0xF000 ∧
    ∃ t, exec (.op7xkk x kk) s = .next t ∧ (t.readV x).toNat = ((s.readV x).toNat + kk.toNat) % 256 ∧
      KeepsRegsExcept [x] s t ∧ OnlyChanges [.v] s t

/-- R88 to R90: OR, AND and XOR bit by bit into Vx. That VF is otherwise unchanged is the spec's decision D21 (log 19). -/
def Obligations.LogicWorksBitByBit : Prop :=
  ∀ (x y : RegIdx) (s : State),
    EncodedAs (.op8xy1 x y) 0x8001 0xF00F ∧ EncodedAs (.op8xy2 x y) 0x8002 0xF00F ∧
    EncodedAs (.op8xy3 x y) 0x8003 0xF00F ∧
    (∃ t, exec (.op8xy1 x y) s = .next t ∧ KeepsRegsExcept [x] s t ∧ OnlyChanges [.v] s t ∧
      ∀ b, b < 8 → (t.readV x).getLsbD b = ((s.readV x).getLsbD b || (s.readV y).getLsbD b)) ∧
    (∃ t, exec (.op8xy2 x y) s = .next t ∧ KeepsRegsExcept [x] s t ∧ OnlyChanges [.v] s t ∧
      ∀ b, b < 8 → (t.readV x).getLsbD b = ((s.readV x).getLsbD b && (s.readV y).getLsbD b)) ∧
    (∃ t, exec (.op8xy3 x y) s = .next t ∧ KeepsRegsExcept [x] s t ∧ OnlyChanges [.v] s t ∧
      ∀ b, b < 8 → (t.readV x).getLsbD b = ((s.readV x).getLsbD b ^^ (s.readV y).getLsbD b))

/-- R91: `Vx = (Vx + Vy) mod 256` and `VF = 1` iff the unsigned sum is at least 256, else 0; with x = 0xF the register
ends as the flag. -/
def Obligations.AddReportsCarry : Prop :=
  ∀ (x y : RegIdx) (s : State), EncodedAs (.op8xy4 x y) 0x8004 0xF00F ∧
    ∃ t, exec (.op8xy4 x y) s = .next t ∧
      (x ≠ vf → (t.readV x).toNat = ((s.readV x).toNat + (s.readV y).toNat) % 256) ∧
      (t.readV vf).toNat = (if 256 ≤ (s.readV x).toNat + (s.readV y).toNat then 1 else 0) ∧
      KeepsRegsExcept [x, vf] s t ∧ OnlyChanges [.v] s t

/-- R92, R94: `8xy5` subtracts Vy from Vx and `8xy7` Vx from Vy, modulo 256, into Vx; VF is 1 iff the minuend is at least
the subtrahend before the subtraction, else 0, and with x = 0xF the register ends as the flag. -/
def Obligations.SubtractReportsNoBorrow : Prop :=
  ∀ (x y : RegIdx) (s : State),
    EncodedAs (.op8xy5 x y) 0x8005 0xF00F ∧ EncodedAs (.op8xy7 x y) 0x8007 0xF00F ∧
    (∃ t, exec (.op8xy5 x y) s = .next t ∧
      (x ≠ vf → ((t.readV x).toNat : Int) = ((s.readV x).toNat - (s.readV y).toNat : Int) % 256) ∧
      (t.readV vf).toNat = (if (s.readV y).toNat ≤ (s.readV x).toNat then 1 else 0) ∧
      KeepsRegsExcept [x, vf] s t ∧ OnlyChanges [.v] s t) ∧
    (∃ t, exec (.op8xy7 x y) s = .next t ∧
      (x ≠ vf → ((t.readV x).toNat : Int) = ((s.readV y).toNat - (s.readV x).toNat : Int) % 256) ∧
      (t.readV vf).toNat = (if (s.readV x).toNat ≤ (s.readV y).toNat then 1 else 0) ∧
      KeepsRegsExcept [x, vf] s t ∧ OnlyChanges [.v] s t)

/-- R93, R95: `8xy6` and `8xyE` shift Vy, not Vx, by one into Vx; VF is the bit shifted out, bit 0 or bit 7 of Vy before
the shift, and with x = 0xF the register ends as the flag. -/
def Obligations.ShiftsTakeVyAndReportTheBitLost : Prop :=
  ∀ (x y : RegIdx) (s : State),
    EncodedAs (.op8xy6 x y) 0x8006 0xF00F ∧ EncodedAs (.op8xyE x y) 0x800E 0xF00F ∧
    (∃ t, exec (.op8xy6 x y) s = .next t ∧ (x ≠ vf → (t.readV x).toNat = (s.readV y).toNat / 2) ∧
      (t.readV vf).toNat = (s.readV y).toNat % 2 ∧ KeepsRegsExcept [x, vf] s t ∧ OnlyChanges [.v] s t) ∧
    (∃ t, exec (.op8xyE x y) s = .next t ∧ (x ≠ vf → (t.readV x).toNat = (s.readV y).toNat * 2 % 256) ∧
      (t.readV vf).toNat = (s.readV y).toNat / 128 ∧ KeepsRegsExcept [x, vf] s t ∧ OnlyChanges [.v] s t)

/-- R96: `Vx = rnd & kk`, bit by bit, for whatever byte the environment supplies: `rnd` is a free input by the spec's
decision D12 (log 14). -/
def Obligations.RandomIsMaskedByKk : Prop :=
  ∀ (x : RegIdx) (kk : Byte) (s : State), EncodedAs (.opCxkk x kk) 0xC000 0xF000 ∧
    ∃ t, exec (.opCxkk x kk) s = .next t ∧ KeepsRegsExcept [x] s t ∧ OnlyChanges [.v] s t ∧
      ∀ b, b < 8 → (t.readV x).getLsbD b = (s.inputs.rnd.getLsbD b && kk.getLsbD b)

/-! ### Address register and memory instructions -/

/-- R100, R102: `Annn` sets I to nnn, zero-extended, and `Fx29` sets I to 0x050 + 5·Vx, with the whole byte of Vx and no
memory access. -/
def Obligations.IndexLoadsSetI : Prop :=
  ∀ (nnn : Addr) (x : RegIdx) (s : State),
    EncodedAs (.opAnnn nnn) 0xA000 0xF000 ∧ EncodedAs (.opFx29 x) 0xF029 0xF0FF ∧
    (∃ t, exec (.opAnnn nnn) s = .next t ∧ t.i.toNat = nnn.toNat ∧ OnlyChanges [.i] s t) ∧
    (∃ t, exec (.opFx29 x) s = .next t ∧ t.i.toNat = 0x050 + 5 * (s.readV x).toNat ∧ OnlyChanges [.i] s t)

/-- R101: `I += Vx` modulo 0x10000 (the spec's decision D8, log 11), with no flag. -/
def Obligations.AddToIndexWrapsAtSixteenBits : Prop :=
  ∀ (x : RegIdx) (s : State), EncodedAs (.opFx1E x) 0xF01E 0xF0FF ∧
    ∃ t, exec (.opFx1E x) s = .next t ∧ t.i.toNat = (s.i.toNat + (s.readV x).toNat) % 0x10000 ∧ OnlyChanges [.i] s t

/-- R103: the hundreds, tens and units of Vx go to I, I + 1 and I + 2, each address modulo 0x1000 (the spec's decision
D4, log 7); I is unchanged (D14, log 15), and no other byte changes. -/
def Obligations.BcdStoresThreeDigits : Prop :=
  ∀ (x : RegIdx) (s : State), EncodedAs (.opFx33 x) 0xF033 0xF0FF ∧
    ∃ t, exec (.opFx33 x) s = .next t ∧
      (s.readV x).toNat = 100 * (t.readByte (s.baseAddr 0)).toNat + 10 * (t.readByte (s.baseAddr 1)).toNat +
        (t.readByte (s.baseAddr 2)).toNat ∧
      (t.readByte (s.baseAddr 0)).toNat ≤ 2 ∧ (t.readByte (s.baseAddr 1)).toNat ≤ 9 ∧
      (t.readByte (s.baseAddr 2)).toNat ≤ 9 ∧
      KeepsBytesExcept (fun a => ∃ k, k < 3 ∧ a = s.baseAddr k) s t ∧ OnlyChanges [.mem] s t

/-- R104: V0 to Vx go to I to I + x, each address modulo 0x1000 (D4, log 7); I is unchanged (D14, log 15), and no other
byte changes. -/
def Obligations.BlockStoreWritesV0ToVx : Prop :=
  ∀ (x : RegIdx) (s : State), EncodedAs (.opFx55 x) 0xF055 0xF0FF ∧
    ∃ t, exec (.opFx55 x) s = .next t ∧ (∀ r : RegIdx, r ≤ x → t.readByte (s.baseAddr r.val) = s.readV r) ∧
      KeepsBytesExcept (fun a => ∃ k, k ≤ x.val ∧ a = s.baseAddr k) s t ∧ OnlyChanges [.mem] s t

/-- R105: V0 to Vx are loaded from I to I + x, each address modulo 0x1000 (D4, log 7); I (D14, log 15), memory and the
registers above Vx are unchanged. -/
def Obligations.BlockLoadReadsV0ToVx : Prop :=
  ∀ (x : RegIdx) (s : State), EncodedAs (.opFx65 x) 0xF065 0xF0FF ∧
    ∃ t, exec (.opFx65 x) s = .next t ∧ (∀ r : RegIdx, r ≤ x → t.readV r = s.readByte (s.baseAddr r.val)) ∧
      (∀ r : RegIdx, x < r → t.readV r = s.readV r) ∧ OnlyChanges [.v] s t

/-- R104, R105 (vector S5): `Fx55` then `Fx65` with the same x and I restores V0 to Vx, whatever became of the registers
in between, for every I. -/
def Obligations.BlockStoreThenLoadRestores : Prop :=
  ∀ (x : RegIdx) (s : State) (v : Vector Byte 16),
    ∃ t u, exec (.opFx55 x) s = .next t ∧ exec (.opFx65 x) { t with v := v } = .next u ∧
      (∀ r : RegIdx, r ≤ x → u.readV r = s.readV r) ∧ u.i = s.i

/-! ### Display -/

/-- R110: exactly the 256 bytes 0xF00 to 0xFFF become zero. -/
def Obligations.ClearZeroesTheFrameBuffer : Prop :=
  ∀ s : State, encode .op00E0 = 0x00E0 ∧
    ∃ t, exec .op00E0 s = .next t ∧ (∀ a : Addr, 0xF00 ≤ a.toNat → t.readByte a = 0) ∧
      KeepsBytesExcept (fun a => 0xF00 ≤ a.toNat) s t ∧ OnlyChanges [.mem] s t

/-- R111, R112: from every state, sprites that overlap what they draw over included, the pixel loop of `Dxyn` leaves the
bytes and the collision flag that the byte-level form leaves; it writes only the frame buffer and VF. The wrap of the
sprite's addresses, clipping, order and I unchanged are the spec's decisions D4, D5, D6, D14 (log 7, log 8, log 9,
log 15). -/
def Obligations.DrawAgreesWithByteForm : Prop :=
  ∀ (x y : RegIdx) (n : Fin 16) (s : State), EncodedAs (.opDxyn x y n) 0xD000 0xF000 ∧
    ∃ t, exec (.opDxyn x y n) s = .next t ∧
      (∀ a : Addr, t.readByte a =
        (drawSpriteBytes (s.readV x).toNat (s.readV y).toNat s.i.toNat s n.val).1.readByte a) ∧
      (t.readV vf).toNat =
        (if (drawSpriteBytes (s.readV x).toNat (s.readV y).toNat s.i.toNat s n.val).2 then 1 else 0) ∧
      KeepsBytesExcept InFrameBuffer s t ∧ KeepsRegsExcept [vf] s t ∧ OnlyChanges [.mem, .v] s t

/-- R111, R35: when no sprite byte lies in the frame buffer, `Dxyn` toggles exactly the pixels of the grid at which the
sprite has a set bit, and VF is 1 iff one of them was set before. The wrap of the sprite's addresses is the spec's
decision D4 (log 7), clipping D5 (log 8), the latched coordinates when x or y is VF D6 (log 9). A sprite in the frame
buffer is the matter of `DrawAgreesWithByteForm`. -/
def Obligations.DrawTogglesTheSpritesPixels : Prop :=
  ∀ (x y : RegIdx) (n : Fin 16) (s : State), (∀ k, k < n.val → ¬ InFrameBuffer (s.baseAddr k)) →
    ∃ t, exec (.opDxyn x y n) s = .next t ∧
      (∀ col row, col < 64 → row < 32 →
        t.pixel col row =
          (s.pixel col row ^^ spriteBit s (s.readV x).toNat (s.readV y).toNat n.val col row)) ∧
      (t.readV vf = 0 ∨ t.readV vf = 1) ∧
      (t.readV vf = 1 ↔ ∃ col row, col < 64 ∧ row < 32 ∧ s.pixel col row = true ∧
        spriteBit s (s.readV x).toNat (s.readV y).toNat n.val col row = true)

/-- Vector S7 with the condition of C9, by R110 and R111: after `00E0`, a draw and the same draw again (x and y not VF, no
sprite byte in the frame buffer), the frame buffer is clear again; the first draw leaves VF = 0 and the second VF = 1
iff the sprite has a set bit on the grid. The wrap of the sprite's addresses is the spec's decision D4 (log 7), clipping
D5 (log 8); that the second draw finds I unchanged, and so the same sprite, is D14 (log 15). -/
def Obligations.DrawingTwiceRestoresAndCollides : Prop :=
  ∀ (x y : RegIdx) (n : Fin 16) (s : State), x ≠ vf → y ≠ vf →
    (∀ k, k < n.val → ¬ InFrameBuffer (s.baseAddr k)) →
    ∃ c t u, exec .op00E0 s = .next c ∧ exec (.opDxyn x y n) c = .next t ∧ exec (.opDxyn x y n) t = .next u ∧
      Item.mem.Same c u ∧ t.readV vf = 0 ∧ (u.readV vf = 0 ∨ u.readV vf = 1) ∧
      (u.readV vf = 1 ↔ ∃ col row, col < 64 ∧ row < 32 ∧
        spriteBit s (s.readV x).toNat (s.readV y).toNat n.val col row = true)

/-! ### Keypad and timers -/

/-- R120, R121: `Ex9E` adds 2 to pc when the key numbered Vx is down, `ExA1` when it is not; a number above 15 is never
down (the spec's decision D9, log 12). Nothing else changes. -/
def Obligations.SkipsOnKeyLevel : Prop :=
  ∀ (x : RegIdx) (s : State),
    EncodedAs (.opEx9E x) 0xE09E 0xF0FF ∧ EncodedAs (.opExA1 x) 0xE0A1 0xF0FF ∧
    ∃ t u, exec (.opEx9E x) s = .next t ∧ exec (.opExA1 x) s = .next u ∧
      OnlyChanges [.pc] s t ∧ OnlyChanges [.pc] s u ∧
      (∀ k : Key, (s.readV x).toNat = k.val →
        t.pc = (if s.inputs.keys[k] then s.pc + 2 else s.pc) ∧
        u.pc = (if s.inputs.keys[k] then s.pc else s.pc + 2)) ∧
      (16 ≤ (s.readV x).toNat → t.pc = s.pc ∧ u.pc = s.pc + 2)

/-- R122: `Fx07` reads DT into Vx, and in a step the value read is DT before the step's timer check (the place of the check
is the spec's decision D13, log 14). -/
def Obligations.DelayTimerIsReadBeforeTheCheck : Prop :=
  (∀ (x : RegIdx) (s : State), EncodedAs (.opFx07 x) 0xF007 0xF0FF ∧
    ∃ t, exec (.opFx07 x) s = .next t ∧ t.readV x = s.dt ∧ KeepsRegsExcept [x] s t ∧ OnlyChanges [.v] s t) ∧
  (∀ (x : RegIdx) (s : State), StepDue s → s.pc.toNat < 0xFFF → decodeWord s.fetched = .ok (.opFx07 x) →
    ∃ t, step s = .next t ∧ t.readV x = s.dt ∧
      t.dt.toNat = if s.nextInputs.tickDue then s.dt.toNat - 1 else s.dt.toNat)

/-- R124, R125: `Fx15` writes DT and `Fx18` writes ST from Vx; when `tick_due` is true in the step, the new value counts
down once in the same step (the place of the check is the spec's decision D13, log 14). -/
def Obligations.TimerWritesCountInTheSameStep : Prop :=
  (∀ (x : RegIdx) (s : State),
    EncodedAs (.opFx15 x) 0xF015 0xF0FF ∧ EncodedAs (.opFx18 x) 0xF018 0xF0FF ∧
    (∃ t, exec (.opFx15 x) s = .next t ∧ t.dt = s.readV x ∧ OnlyChanges [.dt] s t) ∧
    (∃ t, exec (.opFx18 x) s = .next t ∧ t.st = s.readV x ∧ OnlyChanges [.st] s t)) ∧
  (∀ (x : RegIdx) (s : State), StepDue s → s.pc.toNat < 0xFFF →
    (decodeWord s.fetched = .ok (.opFx15 x) → ∃ t, step s = .next t ∧
      t.dt.toNat = if s.nextInputs.tickDue then (s.readV x).toNat - 1 else (s.readV x).toNat) ∧
    (decodeWord s.fetched = .ok (.opFx18 x) → ∃ t, step s = .next t ∧
      t.st.toNat = if s.nextInputs.tickDue then (s.readV x).toNat - 1 else (s.readV x).toNat))

/-- R123: `Fx0A` only changes the execution state, to `WaitingForKey(x)`; Vx is not changed by it. -/
def Obligations.KeyWaitBegins : Prop :=
  ∀ (x : RegIdx) (s : State), EncodedAs (.opFx0A x) 0xF00A 0xF0FF ∧
    ∃ t, exec (.opFx0A x) s = .next t ∧ t.status = .waitingForKey x ∧ OnlyChanges [.status] s t
end

