-- ==== Sys2Proof/Laws/Decode.lean ====
section
/-! SUPPORT. Words as numbers: the fields of a word (R51), the formats (R52) and the masks of the opcode map (R54), so
that questions about encodings become arithmetic. -/

namespace Sys2Proof

/-! ### Fields of a word (R51) -/

theorem fieldW_toNat (word : Word) : (fieldW word).toNat = word.toNat / 0x1000 := by
  simp [fieldW, BitVec.extractLsb'_toNat, Nat.shiftRight_eq_div_pow]
  omega

@[simp] theorem fieldX_val (word : Word) : (fieldX word).val = word.toNat / 0x100 % 0x10 := by
  simp [fieldX, Nat.shiftRight_eq_div_pow]

@[simp] theorem fieldY_val (word : Word) : (fieldY word).val = word.toNat / 0x10 % 0x10 := by
  simp [fieldY, Nat.shiftRight_eq_div_pow]

theorem fieldZ_toNat (word : Word) : (fieldZ word).toNat = word.toNat % 0x10 := by
  simp [fieldZ, BitVec.extractLsb'_toNat]

@[simp] theorem fieldN_val (word : Word) : (fieldN word).val = word.toNat % 0x10 := by
  simp [fieldN]

theorem fieldNNN_toNat (word : Word) : (fieldNNN word).toNat = word.toNat % 0x1000 := by
  simp [fieldNNN, BitVec.extractLsb'_toNat]

theorem fieldKK_toNat (word : Word) : (fieldKK word).toNat = word.toNat % 0x100 := by
  simp [fieldKK, BitVec.extractLsb'_toNat]

/-! ### Formats (R52) -/

/-- Concatenation puts the left part above the right part (R5). -/
theorem append_toNat {n m : Nat} (a : BitVec n) (b : BitVec m) : (a ++ b).toNat = a.toNat * 2 ^ m + b.toNat := by
  rw [BitVec.toNat_append, ← Nat.shiftLeft_add_eq_or_of_lt b.isLt, Nat.shiftLeft_eq]

@[simp] theorem regField_toNat (r : RegIdx) : (regField r).toNat = r.val := rfl

theorem formatNNN_toNat (w : BitVec 4) (nnn : Addr) : (formatNNN w nnn).toNat = w.toNat * 0x1000 + nnn.toNat :=
  append_toNat w nnn

theorem formatXKK_toNat (w : BitVec 4) (x : RegIdx) (kk : Byte) :
    (formatXKK w x kk).toNat = w.toNat * 0x1000 + (x.val * 0x100 + kk.toNat) :=
  (append_toNat w (regField x ++ kk)).trans (by rw [append_toNat]; rfl)

theorem formatXYN_toNat (w : BitVec 4) (x y : RegIdx) (n : BitVec 4) :
    (formatXYN w x y n).toNat = w.toNat * 0x1000 + (x.val * 0x100 + (y.val * 0x10 + n.toNat)) :=
  (append_toNat w (regField x ++ (regField y ++ n))).trans (by rw [append_toNat, append_toNat]; rfl)

/-! ### Fields of a format (R51, R52) -/

theorem fieldW_formatNNN (w : BitVec 4) (nnn : Addr) : fieldW (formatNNN w nnn) = w :=
  BitVec.eq_of_toNat_eq (by rw [fieldW_toNat, formatNNN_toNat]; omega)

theorem fieldNNN_formatNNN (w : BitVec 4) (nnn : Addr) : fieldNNN (formatNNN w nnn) = nnn :=
  BitVec.eq_of_toNat_eq (by rw [fieldNNN_toNat, formatNNN_toNat]; omega)

theorem fieldW_formatXKK (w : BitVec 4) (x : RegIdx) (kk : Byte) : fieldW (formatXKK w x kk) = w :=
  BitVec.eq_of_toNat_eq (by rw [fieldW_toNat, formatXKK_toNat]; omega)

theorem fieldX_formatXKK (w : BitVec 4) (x : RegIdx) (kk : Byte) : fieldX (formatXKK w x kk) = x :=
  Fin.ext (by rw [fieldX_val, formatXKK_toNat]; omega)

theorem fieldKK_formatXKK (w : BitVec 4) (x : RegIdx) (kk : Byte) : fieldKK (formatXKK w x kk) = kk :=
  BitVec.eq_of_toNat_eq (by rw [fieldKK_toNat, formatXKK_toNat]; omega)

theorem fieldW_formatXYN (w : BitVec 4) (x y : RegIdx) (n : BitVec 4) : fieldW (formatXYN w x y n) = w :=
  BitVec.eq_of_toNat_eq (by rw [fieldW_toNat, formatXYN_toNat]; omega)

theorem fieldX_formatXYN (w : BitVec 4) (x y : RegIdx) (n : BitVec 4) : fieldX (formatXYN w x y n) = x :=
  Fin.ext (by rw [fieldX_val, formatXYN_toNat]; omega)

theorem fieldY_formatXYN (w : BitVec 4) (x y : RegIdx) (n : BitVec 4) : fieldY (formatXYN w x y n) = y :=
  Fin.ext (by rw [fieldY_val, formatXYN_toNat]; omega)

theorem fieldZ_formatXYN (w : BitVec 4) (x y : RegIdx) (n : BitVec 4) : fieldZ (formatXYN w x y n) = n :=
  BitVec.eq_of_toNat_eq (by rw [fieldZ_toNat, formatXYN_toNat]; omega)

theorem fieldN_formatXYN (w : BitVec 4) (x y n : RegIdx) : fieldN (formatXYN w x y (regField n)) = n :=
  Fin.ext (by rw [fieldN_val, formatXYN_toNat, regField_toNat]; omega)

/-! ### Bytes of a word (R38, R39) -/

/-- Two bytes make a word, the first above the second (R38). -/
theorem wordOfBytes_toNat (hi lo : Byte) : (wordOfBytes hi lo).toNat = hi.toNat * 0x100 + lo.toNat :=
  append_toNat hi lo

theorem hiByte_toNat (word : Word) : (hiByte word).toNat = word.toNat / 0x100 := by
  simp [hiByte, BitVec.extractLsb'_toNat, Nat.shiftRight_eq_div_pow]
  omega

theorem loByte_toNat (word : Word) : (loByte word).toNat = word.toNat % 0x100 := by
  simp [loByte, BitVec.extractLsb'_toNat]

/-- A word is its two bytes, the high one first (R39). -/
@[simp] theorem wordOfBytes_hi_lo (word : Word) : wordOfBytes (hiByte word) (loByte word) = word := by
  apply BitVec.eq_of_toNat_eq
  rw [wordOfBytes_toNat, hiByte_toNat, loByte_toNat]
  omega

/-! ### Masks (R54)

The four masks of the opcode map, as arithmetic on the word. -/

theorem high_nibble_toNat (word : Word) : ((word >>> 12) <<< 12).toNat = (word.toNat / 0x1000) <<< 12 := by
  simp [Nat.shiftRight_eq_div_pow, Nat.shiftLeft_eq]
  omega

theorem mask_F000_toNat (word : Word) : (word &&& 0xF000).toNat = word.toNat / 0x1000 * 0x1000 := by
  have h : word &&& (0xF000 : Word) = (word >>> 12) <<< 12 := by
    ext i hi
    interval_cases i <;> simp
  rw [h, high_nibble_toNat, Nat.shiftLeft_eq]

theorem mask_F00F_toNat (word : Word) :
    (word &&& 0xF00F).toNat = word.toNat / 0x1000 * 0x1000 + word.toNat % 0x10 := by
  have h : word &&& (0xF00F : Word) = (word >>> 12) <<< 12 ||| (word <<< 12) >>> 12 := by
    ext i hi
    interval_cases i <;> simp
  have low : ((word <<< 12) >>> 12).toNat = word.toNat % 0x10 := by
    simp [Nat.shiftRight_eq_div_pow, Nat.shiftLeft_eq]
    omega
  rw [h, BitVec.toNat_or, high_nibble_toNat, low, ← Nat.shiftLeft_add_eq_or_of_lt (by omega), Nat.shiftLeft_eq]

theorem mask_F0FF_toNat (word : Word) :
    (word &&& 0xF0FF).toNat = word.toNat / 0x1000 * 0x1000 + word.toNat % 0x100 := by
  have h : word &&& (0xF0FF : Word) = (word >>> 12) <<< 12 ||| (word <<< 8) >>> 8 := by
    ext i hi
    interval_cases i <;> simp
  have low : ((word <<< 8) >>> 8).toNat = word.toNat % 0x100 := by
    simp [Nat.shiftRight_eq_div_pow, Nat.shiftLeft_eq]
    omega
  rw [h, BitVec.toNat_or, high_nibble_toNat, low, ← Nat.shiftLeft_add_eq_or_of_lt (by omega), Nat.shiftLeft_eq]

theorem mask_FFFF (word : Word) : word &&& 0xFFFF = word := BitVec.and_allOnes

end Sys2Proof
end

