-- ==== Sys2Proof/Laws/Memory.lean ====
section
/-! SUPPORT. The laws of memory as plain data: read after write, and that every operation keeps the canonical form. -/

namespace Sys2Proof.Machine

variable {font : Vector Byte 80}

/-! ### Reset contents (R21) -/

theorem resetByte_font {g : Nat} (h : g < 80) : resetByte font (fontBase + g) = font[g] := by
  unfold resetByte
  rw [dif_pos ⟨by omega, by omega⟩]
  simp

theorem resetByte_elsewhere {a : Nat} (h : a < fontBase ∨ fontBase + 80 ≤ a) : resetByte font a = 0 := by
  unfold resetByte
  rw [dif_neg (by omega)]

/-! ### Read after write -/

theorem Memory.lookup_insert_same (m : Memory) (a : Nat) (b : Byte) : Memory.lookup (Memory.insert m a b) a = some b := by
  induction m with
  | nil => simp [Memory.insert, Memory.lookup]
  | cons c rest ih =>
    obtain ⟨k, d⟩ := c
    simp only [Memory.insert]
    split
    · simp [Memory.lookup]
    · split
      · simp [Memory.lookup]
      · have hne : ¬ k = a := fun h => by omega
        simpa [Memory.lookup, hne] using ih

theorem Memory.lookup_insert_other (m : Memory) {a c : Nat} (b : Byte) (h : c ≠ a) :
    Memory.lookup (Memory.insert m a b) c = Memory.lookup m c := by
  induction m with
  | nil => simp [Memory.insert, Memory.lookup, Ne.symm h]
  | cons d rest ih =>
    obtain ⟨k, e⟩ := d
    simp only [Memory.insert]
    split
    · simp [Memory.lookup, Ne.symm h]
    · split
      · next hak => subst hak; simp [Memory.lookup, Ne.symm h]
      · simp [Memory.lookup, ih]

theorem Memory.lookup_erase_same (m : Memory) (a : Nat) : Memory.lookup (Memory.erase m a) a = none := by
  induction m with
  | nil => rfl
  | cons d rest ih =>
    obtain ⟨k, e⟩ := d
    by_cases hk : k = a
    · simpa [Memory.erase, hk] using ih
    · simpa [Memory.erase, Memory.lookup, hk] using ih

theorem Memory.lookup_erase_other (m : Memory) {a c : Nat} (h : c ≠ a) :
    Memory.lookup (Memory.erase m a) c = Memory.lookup m c := by
  induction m with
  | nil => rfl
  | cons d rest ih =>
    obtain ⟨k, e⟩ := d
    by_cases hk : k = a
    · subst hk; simpa [Memory.erase, Memory.lookup, Ne.symm h] using ih
    · by_cases hc : k = c
      · simp [Memory.erase, Memory.lookup, hc, h]
      · simpa [Memory.erase, Memory.lookup, hk, hc] using ih

/-- A read of the address just written gives the byte written. -/
theorem Memory.read_write_same (m : Memory) (a : Nat) (b : Byte) :
    Memory.read font (Memory.write font m a b) a = b := by
  unfold Memory.read Memory.write
  split
  · next h => rw [Memory.lookup_erase_same]; exact h.symm
  · rw [Memory.lookup_insert_same]; rfl

/-- A write leaves every other address alone. -/
theorem Memory.read_write_other (m : Memory) {a c : Nat} (b : Byte) (h : c ≠ a) :
    Memory.read font (Memory.write font m a b) c = Memory.read font m c := by
  unfold Memory.read Memory.write
  split
  · rw [Memory.lookup_erase_other m h]
  · rw [Memory.lookup_insert_other m b h]

/-! ### The canonical form -/

/-- Strictly rising addresses, as a relation between the cells. -/
theorem Memory.rising_iff (m : Memory) : Memory.rising m = true ↔ m.Pairwise (fun c d => c.1 < d.1) := by
  induction m with
  | nil => simp [Memory.rising]
  | cons c rest ih =>
    cases rest with
    | nil => simp [Memory.rising]
    | cons d rest =>
      obtain ⟨a, x⟩ := c
      obtain ⟨k, y⟩ := d
      have hstep : Memory.rising ((a, x) :: (k, y) :: rest) = true ↔ a < k ∧ Memory.rising ((k, y) :: rest) = true := by
        simp [Memory.rising]
      rw [hstep, ih, List.pairwise_cons (l := (k, y) :: rest)]
      constructor
      · rintro ⟨hak, hp⟩
        refine ⟨fun d hd => ?_, hp⟩
        rcases List.mem_cons.1 hd with rfl | hd
        · exact hak
        · exact Nat.lt_trans hak ((List.pairwise_cons.1 hp).1 d hd)
      · rintro ⟨hall, hp⟩
        exact ⟨hall (k, y) (List.mem_cons_self ..), hp⟩

/-- The canonical form as two facts: the order of the cells, and what each cell may be. -/
theorem Memory.wf_iff (m : Memory) : Memory.wf font m = true ↔
    m.Pairwise (fun c d => c.1 < d.1) ∧ ∀ c ∈ m, c.1 < memSize ∧ c.2 ≠ resetByte font c.1 := by
  simp [Memory.wf, Memory.rising_iff]

/-- Empty memory, as reset leaves it, is canonical. -/
theorem Memory.wf_nil : Memory.wf font [] = true := rfl

theorem Memory.mem_insert (m : Memory) (a : Nat) (b : Byte) {c : Host.Cell} (h : c ∈ Memory.insert m a b) :
    c = (a, b) ∨ c ∈ m := by
  induction m with
  | nil => simpa [Memory.insert] using h
  | cons d rest ih =>
    obtain ⟨k, e⟩ := d
    simp only [Memory.insert] at h
    split at h
    · simpa using h
    · split at h
      · rcases List.mem_cons.1 h with h | h
        · exact .inl h
        · exact .inr (List.mem_cons_of_mem _ h)
      · rcases List.mem_cons.1 h with h | h
        · exact .inr (h ▸ List.mem_cons_self ..)
        · exact (ih h).imp_right (List.mem_cons_of_mem _)

theorem Memory.insert_pairwise (m : Memory) (a : Nat) (b : Byte) (h : m.Pairwise (fun c d => c.1 < d.1)) :
    (Memory.insert m a b).Pairwise (fun c d => c.1 < d.1) := by
  induction m with
  | nil => simp [Memory.insert]
  | cons d rest ih =>
    obtain ⟨k, e⟩ := d
    have hr := List.pairwise_cons.1 h
    simp only [Memory.insert]
    split
    · next hak =>
      refine List.pairwise_cons.2 ⟨fun c hc => ?_, h⟩
      rcases List.mem_cons.1 hc with rfl | hc
      · exact hak
      · exact Nat.lt_trans hak (hr.1 c hc)
    · split
      · next hak => subst hak; exact List.pairwise_cons.2 ⟨fun c hc => hr.1 c hc, hr.2⟩
      · refine List.pairwise_cons.2 ⟨fun c hc => ?_, ih hr.2⟩
        rcases Memory.mem_insert rest a b hc with rfl | hc
        · show k < a
          omega
        · exact hr.1 c hc

/-- A write to an address of the 4096 keeps the canonical form. -/
theorem Memory.wf_write (m : Memory) (a : Nat) (b : Byte) (ha : a < memSize) (h : Memory.wf font m = true) :
    Memory.wf font (Memory.write font m a b) = true := by
  rw [Memory.wf_iff] at h ⊢
  unfold Memory.write
  split
  · refine ⟨h.1.filter _, fun c hc => h.2 c (List.mem_of_mem_filter hc)⟩
  · next hb =>
    refine ⟨Memory.insert_pairwise m a b h.1, fun c hc => ?_⟩
    rcases Memory.mem_insert m a b hc with rfl | hc
    · exact ⟨ha, hb⟩
    · exact h.2 c hc

end Sys2Proof.Machine
end

