-- ==== Sys2Proof/Laws/State.lean ====
section
/-! SUPPORT. One lemma per field per update of State, and what a register or a byte reads as after an update of something
else: true by rfl, so that no later proof unfolds a record update. -/

namespace Sys2Proof.Machine

variable (s : State)

@[simp] theorem State.writeV_mem (x : RegIdx) (b : Byte) : (s.writeV x b).mem = s.mem := rfl
@[simp] theorem State.writeV_v (x : RegIdx) (b : Byte) : (s.writeV x b).v = s.v.set x b := rfl
@[simp] theorem State.writeV_i (x : RegIdx) (b : Byte) : (s.writeV x b).i = s.i := rfl
@[simp] theorem State.writeV_pc (x : RegIdx) (b : Byte) : (s.writeV x b).pc = s.pc := rfl
@[simp] theorem State.writeV_stack (x : RegIdx) (b : Byte) : (s.writeV x b).stack = s.stack := rfl
@[simp] theorem State.writeV_dt (x : RegIdx) (b : Byte) : (s.writeV x b).dt = s.dt := rfl
@[simp] theorem State.writeV_st (x : RegIdx) (b : Byte) : (s.writeV x b).st = s.st := rfl
@[simp] theorem State.writeV_status (x : RegIdx) (b : Byte) : (s.writeV x b).status = s.status := rfl
@[simp] theorem State.writeV_cfg (x : RegIdx) (b : Byte) : (s.writeV x b).cfg = s.cfg := rfl
@[simp] theorem State.writeV_inputs (x : RegIdx) (b : Byte) : (s.writeV x b).inputs = s.inputs := rfl
@[simp] theorem State.writeV_schedule (x : RegIdx) (b : Byte) : (s.writeV x b).schedule = s.schedule := rfl
@[simp] theorem State.writeV_drawn (x : RegIdx) (b : Byte) : (s.writeV x b).drawn = s.drawn := rfl
@[simp] theorem State.writeV_present (x : RegIdx) (b : Byte) : (s.writeV x b).present = s.present := rfl
@[simp] theorem State.readByte_writeV (x : RegIdx) (b : Byte) (c : Addr) : (s.writeV x b).readByte c = s.readByte c := rfl

@[simp] theorem State.setI_mem (a : Word) : (s.setI a).mem = s.mem := rfl
@[simp] theorem State.setI_v (a : Word) : (s.setI a).v = s.v := rfl
@[simp] theorem State.setI_i (a : Word) : (s.setI a).i = a := rfl
@[simp] theorem State.setI_pc (a : Word) : (s.setI a).pc = s.pc := rfl
@[simp] theorem State.setI_stack (a : Word) : (s.setI a).stack = s.stack := rfl
@[simp] theorem State.setI_dt (a : Word) : (s.setI a).dt = s.dt := rfl
@[simp] theorem State.setI_st (a : Word) : (s.setI a).st = s.st := rfl
@[simp] theorem State.setI_status (a : Word) : (s.setI a).status = s.status := rfl
@[simp] theorem State.setI_cfg (a : Word) : (s.setI a).cfg = s.cfg := rfl
@[simp] theorem State.setI_inputs (a : Word) : (s.setI a).inputs = s.inputs := rfl
@[simp] theorem State.setI_schedule (a : Word) : (s.setI a).schedule = s.schedule := rfl
@[simp] theorem State.setI_drawn (a : Word) : (s.setI a).drawn = s.drawn := rfl
@[simp] theorem State.setI_present (a : Word) : (s.setI a).present = s.present := rfl
@[simp] theorem State.readV_setI (a : Word) (r : RegIdx) : (s.setI a).readV r = s.readV r := rfl
@[simp] theorem State.readByte_setI (a : Word) (c : Addr) : (s.setI a).readByte c = s.readByte c := rfl

@[simp] theorem State.setPc_mem (a : Word) : (s.setPc a).mem = s.mem := rfl
@[simp] theorem State.setPc_v (a : Word) : (s.setPc a).v = s.v := rfl
@[simp] theorem State.setPc_i (a : Word) : (s.setPc a).i = s.i := rfl
@[simp] theorem State.setPc_pc (a : Word) : (s.setPc a).pc = a := rfl
@[simp] theorem State.setPc_stack (a : Word) : (s.setPc a).stack = s.stack := rfl
@[simp] theorem State.setPc_dt (a : Word) : (s.setPc a).dt = s.dt := rfl
@[simp] theorem State.setPc_st (a : Word) : (s.setPc a).st = s.st := rfl
@[simp] theorem State.setPc_status (a : Word) : (s.setPc a).status = s.status := rfl
@[simp] theorem State.setPc_cfg (a : Word) : (s.setPc a).cfg = s.cfg := rfl
@[simp] theorem State.setPc_inputs (a : Word) : (s.setPc a).inputs = s.inputs := rfl
@[simp] theorem State.setPc_schedule (a : Word) : (s.setPc a).schedule = s.schedule := rfl
@[simp] theorem State.setPc_drawn (a : Word) : (s.setPc a).drawn = s.drawn := rfl
@[simp] theorem State.setPc_present (a : Word) : (s.setPc a).present = s.present := rfl
@[simp] theorem State.readV_setPc (a : Word) (r : RegIdx) : (s.setPc a).readV r = s.readV r := rfl
@[simp] theorem State.readByte_setPc (a : Word) (c : Addr) : (s.setPc a).readByte c = s.readByte c := rfl

@[simp] theorem State.setStack_mem (l : List Word) : (s.setStack l).mem = s.mem := rfl
@[simp] theorem State.setStack_v (l : List Word) : (s.setStack l).v = s.v := rfl
@[simp] theorem State.setStack_i (l : List Word) : (s.setStack l).i = s.i := rfl
@[simp] theorem State.setStack_pc (l : List Word) : (s.setStack l).pc = s.pc := rfl
@[simp] theorem State.setStack_stack (l : List Word) : (s.setStack l).stack = l := rfl
@[simp] theorem State.setStack_dt (l : List Word) : (s.setStack l).dt = s.dt := rfl
@[simp] theorem State.setStack_st (l : List Word) : (s.setStack l).st = s.st := rfl
@[simp] theorem State.setStack_status (l : List Word) : (s.setStack l).status = s.status := rfl
@[simp] theorem State.setStack_cfg (l : List Word) : (s.setStack l).cfg = s.cfg := rfl
@[simp] theorem State.setStack_inputs (l : List Word) : (s.setStack l).inputs = s.inputs := rfl
@[simp] theorem State.setStack_schedule (l : List Word) : (s.setStack l).schedule = s.schedule := rfl
@[simp] theorem State.setStack_drawn (l : List Word) : (s.setStack l).drawn = s.drawn := rfl
@[simp] theorem State.setStack_present (l : List Word) : (s.setStack l).present = s.present := rfl
@[simp] theorem State.readV_setStack (l : List Word) (r : RegIdx) : (s.setStack l).readV r = s.readV r := rfl
@[simp] theorem State.readByte_setStack (l : List Word) (c : Addr) : (s.setStack l).readByte c = s.readByte c := rfl

@[simp] theorem State.setDT_mem (b : Byte) : (s.setDT b).mem = s.mem := rfl
@[simp] theorem State.setDT_v (b : Byte) : (s.setDT b).v = s.v := rfl
@[simp] theorem State.setDT_i (b : Byte) : (s.setDT b).i = s.i := rfl
@[simp] theorem State.setDT_pc (b : Byte) : (s.setDT b).pc = s.pc := rfl
@[simp] theorem State.setDT_stack (b : Byte) : (s.setDT b).stack = s.stack := rfl
@[simp] theorem State.setDT_dt (b : Byte) : (s.setDT b).dt = b := rfl
@[simp] theorem State.setDT_st (b : Byte) : (s.setDT b).st = s.st := rfl
@[simp] theorem State.setDT_status (b : Byte) : (s.setDT b).status = s.status := rfl
@[simp] theorem State.setDT_cfg (b : Byte) : (s.setDT b).cfg = s.cfg := rfl
@[simp] theorem State.setDT_inputs (b : Byte) : (s.setDT b).inputs = s.inputs := rfl
@[simp] theorem State.setDT_schedule (b : Byte) : (s.setDT b).schedule = s.schedule := rfl
@[simp] theorem State.setDT_drawn (b : Byte) : (s.setDT b).drawn = s.drawn := rfl
@[simp] theorem State.setDT_present (b : Byte) : (s.setDT b).present = s.present := rfl
@[simp] theorem State.readV_setDT (b : Byte) (r : RegIdx) : (s.setDT b).readV r = s.readV r := rfl
@[simp] theorem State.readByte_setDT (b : Byte) (c : Addr) : (s.setDT b).readByte c = s.readByte c := rfl

@[simp] theorem State.setST_mem (b : Byte) : (s.setST b).mem = s.mem := rfl
@[simp] theorem State.setST_v (b : Byte) : (s.setST b).v = s.v := rfl
@[simp] theorem State.setST_i (b : Byte) : (s.setST b).i = s.i := rfl
@[simp] theorem State.setST_pc (b : Byte) : (s.setST b).pc = s.pc := rfl
@[simp] theorem State.setST_stack (b : Byte) : (s.setST b).stack = s.stack := rfl
@[simp] theorem State.setST_dt (b : Byte) : (s.setST b).dt = s.dt := rfl
@[simp] theorem State.setST_st (b : Byte) : (s.setST b).st = b := rfl
@[simp] theorem State.setST_status (b : Byte) : (s.setST b).status = s.status := rfl
@[simp] theorem State.setST_cfg (b : Byte) : (s.setST b).cfg = s.cfg := rfl
@[simp] theorem State.setST_inputs (b : Byte) : (s.setST b).inputs = s.inputs := rfl
@[simp] theorem State.setST_schedule (b : Byte) : (s.setST b).schedule = s.schedule := rfl
@[simp] theorem State.setST_drawn (b : Byte) : (s.setST b).drawn = s.drawn := rfl
@[simp] theorem State.setST_present (b : Byte) : (s.setST b).present = s.present := rfl
@[simp] theorem State.readV_setST (b : Byte) (r : RegIdx) : (s.setST b).readV r = s.readV r := rfl
@[simp] theorem State.readByte_setST (b : Byte) (c : Addr) : (s.setST b).readByte c = s.readByte c := rfl

@[simp] theorem State.setStatus_mem (e : ExecState) : (s.setStatus e).mem = s.mem := rfl
@[simp] theorem State.setStatus_v (e : ExecState) : (s.setStatus e).v = s.v := rfl
@[simp] theorem State.setStatus_i (e : ExecState) : (s.setStatus e).i = s.i := rfl
@[simp] theorem State.setStatus_pc (e : ExecState) : (s.setStatus e).pc = s.pc := rfl
@[simp] theorem State.setStatus_stack (e : ExecState) : (s.setStatus e).stack = s.stack := rfl
@[simp] theorem State.setStatus_dt (e : ExecState) : (s.setStatus e).dt = s.dt := rfl
@[simp] theorem State.setStatus_st (e : ExecState) : (s.setStatus e).st = s.st := rfl
@[simp] theorem State.setStatus_status (e : ExecState) : (s.setStatus e).status = e := rfl
@[simp] theorem State.setStatus_cfg (e : ExecState) : (s.setStatus e).cfg = s.cfg := rfl
@[simp] theorem State.setStatus_inputs (e : ExecState) : (s.setStatus e).inputs = s.inputs := rfl
@[simp] theorem State.setStatus_schedule (e : ExecState) : (s.setStatus e).schedule = s.schedule := rfl
@[simp] theorem State.setStatus_drawn (e : ExecState) : (s.setStatus e).drawn = s.drawn := rfl
@[simp] theorem State.setStatus_present (e : ExecState) : (s.setStatus e).present = s.present := rfl
@[simp] theorem State.readV_setStatus (e : ExecState) (r : RegIdx) : (s.setStatus e).readV r = s.readV r := rfl
@[simp] theorem State.readByte_setStatus (e : ExecState) (c : Addr) : (s.setStatus e).readByte c = s.readByte c := rfl

@[simp] theorem State.setPresent_mem (p : Bool) : (s.setPresent p).mem = s.mem := rfl
@[simp] theorem State.setPresent_v (p : Bool) : (s.setPresent p).v = s.v := rfl
@[simp] theorem State.setPresent_i (p : Bool) : (s.setPresent p).i = s.i := rfl
@[simp] theorem State.setPresent_pc (p : Bool) : (s.setPresent p).pc = s.pc := rfl
@[simp] theorem State.setPresent_stack (p : Bool) : (s.setPresent p).stack = s.stack := rfl
@[simp] theorem State.setPresent_dt (p : Bool) : (s.setPresent p).dt = s.dt := rfl
@[simp] theorem State.setPresent_st (p : Bool) : (s.setPresent p).st = s.st := rfl
@[simp] theorem State.setPresent_status (p : Bool) : (s.setPresent p).status = s.status := rfl
@[simp] theorem State.setPresent_cfg (p : Bool) : (s.setPresent p).cfg = s.cfg := rfl
@[simp] theorem State.setPresent_inputs (p : Bool) : (s.setPresent p).inputs = s.inputs := rfl
@[simp] theorem State.setPresent_schedule (p : Bool) : (s.setPresent p).schedule = s.schedule := rfl
@[simp] theorem State.setPresent_drawn (p : Bool) : (s.setPresent p).drawn = s.drawn := rfl
@[simp] theorem State.setPresent_present (p : Bool) : (s.setPresent p).present = p := rfl
@[simp] theorem State.readV_setPresent (p : Bool) (r : RegIdx) : (s.setPresent p).readV r = s.readV r := rfl
@[simp] theorem State.readByte_setPresent (p : Bool) (c : Addr) : (s.setPresent p).readByte c = s.readByte c := rfl

@[simp] theorem State.writeByte_mem (a : Addr) (b : Byte) : (s.writeByte a b).mem = Memory.write s.cfg.font s.mem a.toNat b := rfl
@[simp] theorem State.writeByte_v (a : Addr) (b : Byte) : (s.writeByte a b).v = s.v := rfl
@[simp] theorem State.writeByte_i (a : Addr) (b : Byte) : (s.writeByte a b).i = s.i := rfl
@[simp] theorem State.writeByte_pc (a : Addr) (b : Byte) : (s.writeByte a b).pc = s.pc := rfl
@[simp] theorem State.writeByte_stack (a : Addr) (b : Byte) : (s.writeByte a b).stack = s.stack := rfl
@[simp] theorem State.writeByte_dt (a : Addr) (b : Byte) : (s.writeByte a b).dt = s.dt := rfl
@[simp] theorem State.writeByte_st (a : Addr) (b : Byte) : (s.writeByte a b).st = s.st := rfl
@[simp] theorem State.writeByte_status (a : Addr) (b : Byte) : (s.writeByte a b).status = s.status := rfl
@[simp] theorem State.writeByte_cfg (a : Addr) (b : Byte) : (s.writeByte a b).cfg = s.cfg := rfl
@[simp] theorem State.writeByte_inputs (a : Addr) (b : Byte) : (s.writeByte a b).inputs = s.inputs := rfl
@[simp] theorem State.writeByte_schedule (a : Addr) (b : Byte) : (s.writeByte a b).schedule = s.schedule := rfl
@[simp] theorem State.writeByte_drawn (a : Addr) (b : Byte) : (s.writeByte a b).drawn = s.drawn := rfl
@[simp] theorem State.writeByte_present (a : Addr) (b : Byte) : (s.writeByte a b).present = s.present := rfl
@[simp] theorem State.readV_writeByte (a : Addr) (b : Byte) (r : RegIdx) : (s.writeByte a b).readV r = s.readV r := rfl

@[simp] theorem State.push_mem (a : Word) : (s.push a).mem = s.mem := rfl
@[simp] theorem State.push_v (a : Word) : (s.push a).v = s.v := rfl
@[simp] theorem State.push_i (a : Word) : (s.push a).i = s.i := rfl
@[simp] theorem State.push_pc (a : Word) : (s.push a).pc = s.pc := rfl
@[simp] theorem State.push_stack (a : Word) : (s.push a).stack = a :: s.stack := rfl
@[simp] theorem State.push_dt (a : Word) : (s.push a).dt = s.dt := rfl
@[simp] theorem State.push_st (a : Word) : (s.push a).st = s.st := rfl
@[simp] theorem State.push_status (a : Word) : (s.push a).status = s.status := rfl
@[simp] theorem State.push_cfg (a : Word) : (s.push a).cfg = s.cfg := rfl
@[simp] theorem State.push_inputs (a : Word) : (s.push a).inputs = s.inputs := rfl
@[simp] theorem State.push_schedule (a : Word) : (s.push a).schedule = s.schedule := rfl
@[simp] theorem State.push_drawn (a : Word) : (s.push a).drawn = s.drawn := rfl
@[simp] theorem State.push_present (a : Word) : (s.push a).present = s.present := rfl
@[simp] theorem State.readV_push (a : Word) (r : RegIdx) : (s.push a).readV r = s.readV r := rfl
@[simp] theorem State.readByte_push (a : Word) (c : Addr) : (s.push a).readByte c = s.readByte c := rfl

@[simp] theorem State.halt_mem : (s.halt).mem = s.mem := rfl
@[simp] theorem State.halt_v : (s.halt).v = s.v := rfl
@[simp] theorem State.halt_i : (s.halt).i = s.i := rfl
@[simp] theorem State.halt_pc : (s.halt).pc = s.pc := rfl
@[simp] theorem State.halt_stack : (s.halt).stack = s.stack := rfl
@[simp] theorem State.halt_dt : (s.halt).dt = s.dt := rfl
@[simp] theorem State.halt_st : (s.halt).st = s.st := rfl
@[simp] theorem State.halt_status : (s.halt).status = .halted := rfl
@[simp] theorem State.halt_cfg : (s.halt).cfg = s.cfg := rfl
@[simp] theorem State.halt_inputs : (s.halt).inputs = s.inputs := rfl
@[simp] theorem State.halt_schedule : (s.halt).schedule = s.schedule := rfl
@[simp] theorem State.halt_drawn : (s.halt).drawn = s.drawn := rfl
@[simp] theorem State.halt_present : (s.halt).present = s.present := rfl
@[simp] theorem State.readV_halt (r : RegIdx) : (s.halt).readV r = s.readV r := rfl
@[simp] theorem State.readByte_halt (c : Addr) : (s.halt).readByte c = s.readByte c := rfl

@[simp] theorem State.advance_mem : (s.advance).mem = s.mem := rfl
@[simp] theorem State.advance_v : (s.advance).v = s.v := rfl
@[simp] theorem State.advance_i : (s.advance).i = s.i := rfl
@[simp] theorem State.advance_pc : (s.advance).pc = s.pc + 2 := rfl
@[simp] theorem State.advance_stack : (s.advance).stack = s.stack := rfl
@[simp] theorem State.advance_dt : (s.advance).dt = s.dt := rfl
@[simp] theorem State.advance_st : (s.advance).st = s.st := rfl
@[simp] theorem State.advance_status : (s.advance).status = s.status := rfl
@[simp] theorem State.advance_cfg : (s.advance).cfg = s.cfg := rfl
@[simp] theorem State.advance_inputs : (s.advance).inputs = s.inputs := rfl
@[simp] theorem State.advance_schedule : (s.advance).schedule = s.schedule := rfl
@[simp] theorem State.advance_drawn : (s.advance).drawn = s.drawn := rfl
@[simp] theorem State.advance_present : (s.advance).present = s.present := rfl
@[simp] theorem State.readV_advance (r : RegIdx) : (s.advance).readV r = s.readV r := rfl
@[simp] theorem State.readByte_advance (c : Addr) : (s.advance).readByte c = s.readByte c := rfl

@[simp] theorem State.stopped_mem : (s.stopped).mem = s.mem := rfl
@[simp] theorem State.stopped_v : (s.stopped).v = s.v := rfl
@[simp] theorem State.stopped_i : (s.stopped).i = s.i := rfl
@[simp] theorem State.stopped_pc : (s.stopped).pc = s.pc := rfl
@[simp] theorem State.stopped_stack : (s.stopped).stack = s.stack := rfl
@[simp] theorem State.stopped_dt : (s.stopped).dt = s.dt := rfl
@[simp] theorem State.stopped_st : (s.stopped).st = s.st := rfl
@[simp] theorem State.stopped_status : (s.stopped).status = s.status := rfl
@[simp] theorem State.stopped_cfg : (s.stopped).cfg = s.cfg := rfl
@[simp] theorem State.stopped_inputs : (s.stopped).inputs = s.inputs := rfl
@[simp] theorem State.stopped_schedule : (s.stopped).schedule = s.schedule := rfl
@[simp] theorem State.stopped_drawn : (s.stopped).drawn = s.drawn := rfl
@[simp] theorem State.stopped_present : (s.stopped).present = false := rfl
@[simp] theorem State.readV_stopped (r : RegIdx) : (s.stopped).readV r = s.readV r := rfl
@[simp] theorem State.readByte_stopped (c : Addr) : (s.stopped).readByte c = s.readByte c := rfl

end Sys2Proof.Machine
end

