-- ==== Sys2Proof/Laws/Ops.lean ====
section
/-! SUPPORT. One lemma per shared operation, which says what the operation does; the proofs about meanings cite these
instead of unfolding the operation. -/

namespace Sys2Proof.Machine

variable (s : State)

/-! ### Registers -/

theorem State.readV_writeV (x r : RegIdx) (b : Byte) :
    (s.writeV x b).readV r = if r = x then b else s.readV r := by
  unfold State.readV State.writeV
  by_cases h : r = x
  · subst h; simp
  · have hv : (x : Nat) ≠ r := fun e => h (Fin.ext e.symm)
    simp [h, hv]

@[simp] theorem State.readV_writeV_same (x : RegIdx) (b : Byte) : (s.writeV x b).readV x = b := by
  simp [State.readV_writeV]

theorem State.readV_writeV_other {x r : RegIdx} (b : Byte) (h : r ≠ x) : (s.writeV x b).readV r = s.readV r := by
  simp [State.readV_writeV, h]

/-- The flag wins over the result, and the other registers keep their values (R73). -/
theorem State.readV_writeResultFlag (x r : RegIdx) (result flag : Byte) :
    (s.writeResultFlag x result flag).readV r =
      if r = vf then flag else if r = x then result else s.readV r := by
  simp [State.writeResultFlag, State.readV_writeV]

theorem keepsRegs_writeV (x : RegIdx) (b : Byte) : KeepsRegsExcept [x] s (s.writeV x b) := by
  intro r hr
  exact State.readV_writeV_other s b (by simpa using hr)

theorem keepsRegs_writeResultFlag (x : RegIdx) (result flag : Byte) :
    KeepsRegsExcept [x, vf] s (s.writeResultFlag x result flag) := by
  intro r hr
  simp only [List.mem_cons, List.not_mem_nil, or_false, not_or] at hr
  simp [State.readV_writeResultFlag, hr]

/-- A 12-bit immediate keeps its value (R53). -/
@[simp] theorem addrImm_toNat (nnn : Addr) : (addrImm nnn).toNat = nnn.toNat := by
  simp only [addrImm, BitVec.toNat_setWidth, BitVec.truncate_eq_setWidth]
  omega

/-- A byte keeps its value (R6). -/
@[simp] theorem zextByte_toNat (b : Byte) : (zextByte b).toNat = b.toNat := by
  simp only [zextByte, BitVec.toNat_setWidth, BitVec.truncate_eq_setWidth]
  omega

/-! ### Memory -/

@[simp] theorem ea_toNat (a : Nat) : (ea a).toNat = a % 0x1000 := by simp [ea]

theorem State.readByte_writeByte (a c : Addr) (b : Byte) :
    (s.writeByte a b).readByte c = if c = a then b else s.readByte c := by
  unfold State.readByte State.writeByte
  by_cases h : c = a
  · subst h; simp [Memory.read_write_same]
  · have : c.toNat ≠ a.toNat := fun e => h (BitVec.eq_of_toNat_eq e)
    simp [h, Memory.read_write_other _ _ this]

@[simp] theorem State.readByte_writeByte_same (a : Addr) (b : Byte) : (s.writeByte a b).readByte a = b := by
  simp [State.readByte_writeByte]

theorem State.readByte_writeByte_other {a c : Addr} (b : Byte) (h : c ≠ a) :
    (s.writeByte a b).readByte c = s.readByte c := by simp [State.readByte_writeByte, h]

/-- A word read below the last address answers the two bytes, the first most significant (R38). -/
theorem State.readWord_ok {addr : Nat} (h : addr < pcLimit) :
    s.readWord addr =
      .ok (wordOfBytes (s.readByte (BitVec.ofNat 12 addr)) (s.readByte (BitVec.ofNat 12 (addr + 1)))) := by
  have : addr + 1 < memSize := by simp only [pcLimit, memSize] at *; omega
  simp [State.readWord, this]

/-! ### Frames

`OnlyChanges` is closed under doing one thing after another, and each primitive has its frame. -/

theorem OnlyChanges.refl (items : List Item) : OnlyChanges items s s := by
  refine ⟨fun it _ => ?_, ⟨rfl, rfl, rfl, rfl, rfl⟩⟩
  cases it <;> simp [Item.Same]

theorem Item.Same.trans {it : Item} {a b c : State} (h₁ : it.Same a b) (h₂ : it.Same b c) : it.Same a c := by
  cases it <;> simp_all [Item.Same]

theorem OnlyChanges.trans {items : List Item} {a b c : State} (h₁ : OnlyChanges items a b)
    (h₂ : OnlyChanges items b c) : OnlyChanges items a c :=
  ⟨fun it hit => (h₁.1 it hit).trans (h₂.1 it hit),
   ⟨h₂.2.cfg.trans h₁.2.cfg, h₂.2.inputs.trans h₁.2.inputs, h₂.2.schedule.trans h₁.2.schedule,
    h₂.2.drawn.trans h₁.2.drawn, h₂.2.present.trans h₁.2.present⟩⟩

theorem OnlyChanges.mono {items more : List Item} {a b : State} (h : OnlyChanges items a b)
    (hsub : ∀ it ∈ items, it ∈ more) : OnlyChanges more a b :=
  ⟨fun it hit => h.1 it (fun hm => hit (hsub it hm)), h.2⟩

theorem onlyChanges_writeV (x : RegIdx) (b : Byte) : OnlyChanges [.v] s (s.writeV x b) := by
  refine ⟨fun it hit => ?_, ⟨rfl, rfl, rfl, rfl, rfl⟩⟩
  cases it <;> simp_all [Item.Same]

theorem onlyChanges_setI (a : Word) : OnlyChanges [.i] s (s.setI a) := by
  refine ⟨fun it hit => ?_, ⟨rfl, rfl, rfl, rfl, rfl⟩⟩
  cases it <;> simp_all [Item.Same]

theorem onlyChanges_setPc (a : Word) : OnlyChanges [.pc] s (s.setPc a) := by
  refine ⟨fun it hit => ?_, ⟨rfl, rfl, rfl, rfl, rfl⟩⟩
  cases it <;> simp_all [Item.Same]

theorem onlyChanges_setStack (l : List Word) : OnlyChanges [.stack] s (s.setStack l) := by
  refine ⟨fun it hit => ?_, ⟨rfl, rfl, rfl, rfl, rfl⟩⟩
  cases it <;> simp_all [Item.Same]

theorem onlyChanges_setDT (b : Byte) : OnlyChanges [.dt] s (s.setDT b) := by
  refine ⟨fun it hit => ?_, ⟨rfl, rfl, rfl, rfl, rfl⟩⟩
  cases it <;> simp_all [Item.Same]

theorem onlyChanges_setST (b : Byte) : OnlyChanges [.st] s (s.setST b) := by
  refine ⟨fun it hit => ?_, ⟨rfl, rfl, rfl, rfl, rfl⟩⟩
  cases it <;> simp_all [Item.Same]

theorem onlyChanges_setStatus (e : ExecState) : OnlyChanges [.status] s (s.setStatus e) := by
  refine ⟨fun it hit => ?_, ⟨rfl, rfl, rfl, rfl, rfl⟩⟩
  cases it <;> simp_all [Item.Same]

theorem onlyChanges_writeByte (a : Addr) (b : Byte) : OnlyChanges [.mem] s (s.writeByte a b) := by
  refine ⟨fun it hit => ?_, ⟨rfl, rfl, rfl, rfl, rfl⟩⟩
  cases it <;> simp_all [Item.Same]

theorem onlyChanges_writeResultFlag (x : RegIdx) (r f : Byte) : OnlyChanges [.v] s (s.writeResultFlag x r f) :=
  (onlyChanges_writeV s x r).trans (onlyChanges_writeV _ vf f)

/-- A skip changes pc alone, and only when it is taken (R6). -/
theorem skipIf_eq (c : Bool) : s.skipIf c = s.setPc (if c then s.pc + 2 else s.pc) := by
  cases c <;> rfl

/-- A condition halts, or with STRICT false and one of the two permissive conditions does nothing (R131, R151). -/
theorem raise_eq (c : Condition) : s.raise c =
    if c = .pcOutOfBounds ∨ c = .stackUnderflow ∨ s.cfg.strict = true then s.setStatus .halted else s := by
  cases c <;> simp [State.raise, State.halt]

theorem onlyChanges_raise (c : Condition) : OnlyChanges [.status] s (s.raise c) := by
  rw [raise_eq]
  split
  · exact onlyChanges_setStatus s _
  · exact OnlyChanges.refl s _

/-- The timer check counts each timer down once, or does nothing (R71, R143). -/
theorem timerCheck_eq :
    s.timerCheck = if s.inputs.tickDue then (s.setDT (countDown s.dt)).setST (countDown s.st) else s := rfl

theorem onlyChanges_timerCheck : OnlyChanges [.dt, .st] s s.timerCheck := by
  rw [timerCheck_eq]
  split
  · exact ((onlyChanges_setDT s _).mono (by simp)).trans ((onlyChanges_setST _ _).mono (by simp))
  · exact OnlyChanges.refl s _

/-- One decrement, floored at 0 (R143). -/
theorem countDown_toNat (t : Byte) : (countDown t).toNat = t.toNat - 1 := by
  unfold countDown
  split
  · bv_omega
  · omega

/-! ### Runs of bytes -/

theorem onlyChanges_writeBytes (a : Nat) (bytes : List Byte) : OnlyChanges [.mem] s (s.writeBytes a bytes) := by
  induction bytes generalizing s a with
  | nil => exact OnlyChanges.refl s _
  | cons b rest ih => exact (onlyChanges_writeByte s _ b).trans (ih _ (a + 1))

/-- Bytes outside the addresses of a run are unchanged. -/
theorem readByte_writeBytes_other (a : Nat) (bytes : List Byte) (c : Addr)
    (h : ∀ k, k < bytes.length → c ≠ ea (a + k)) : (s.writeBytes a bytes).readByte c = s.readByte c := by
  induction bytes generalizing s a with
  | nil => rfl
  | cons b rest ih =>
    rw [State.writeBytes, ih]
    · exact State.readByte_writeByte_other s b (by simpa using h 0 (by simp))
    · intro k hk
      have := h (k + 1) (by simpa using hk)
      rwa [show a + (k + 1) = a + 1 + k by omega] at this

theorem ea_eq_iff (a b : Nat) : ea a = ea b ↔ a % 0x1000 = b % 0x1000 := by
  constructor
  · intro h; simpa using congrArg BitVec.toNat h
  · intro h; exact BitVec.eq_of_toNat_eq (by simpa using h)

/-- A run of at most 4096 bytes reads back as it was written. -/
theorem readByte_writeBytes (a : Nat) (bytes : List Byte) (hlen : bytes.length ≤ 0x1000) (k : Nat)
    (hk : k < bytes.length) : (s.writeBytes a bytes).readByte (ea (a + k)) = bytes[k] := by
  induction bytes generalizing s a k with
  | nil => simp at hk
  | cons b rest ih =>
    simp only [List.length_cons] at hlen hk
    cases k with
    | zero =>
      rw [State.writeBytes, readByte_writeBytes_other]
      · simp
      · intro j hj
        rw [Ne, ea_eq_iff]
        omega
    | succ k =>
      rw [State.writeBytes, show a + (k + 1) = a + 1 + k by omega, ih _ (a + 1) (by omega) k (by omega)]
      simp

/-- A run of zeros reads as zero inside (R110). -/
theorem readByte_zeroBytes (a count k : Nat) (hc : count ≤ 0x1000) (hk : k < count) :
    (s.zeroBytes a count).readByte (ea (a + k)) = 0 := by
  have h := readByte_writeBytes s a (List.replicate count 0) (by simpa using hc) k (by simpa using hk)
  rwa [List.getElem_replicate] at h

/-- A run of zeros changes nothing outside (R110). -/
theorem readByte_zeroBytes_other (a count : Nat) (c : Addr) (h : ∀ k, k < count → c ≠ ea (a + k)) :
    (s.zeroBytes a count).readByte c = s.readByte c :=
  readByte_writeBytes_other s a _ c (by simpa using h)

theorem onlyChanges_zeroBytes (a count : Nat) : OnlyChanges [.mem] s (s.zeroBytes a count) :=
  onlyChanges_writeBytes s a _

/-! ### The invariant's parts under the primitives -/

theorem memWf_writeByte (a : Addr) (b : Byte) (h : Memory.wf s.cfg.font s.mem = true) :
    Memory.wf (s.writeByte a b).cfg.font (s.writeByte a b).mem = true :=
  Memory.wf_write s.mem a.toNat b (by have := a.isLt; simp only [memSize]; omega) h

theorem memWf_writeBytes (a : Nat) (bytes : List Byte) (h : Memory.wf s.cfg.font s.mem = true) :
    Memory.wf (s.writeBytes a bytes).cfg.font (s.writeBytes a bytes).mem = true := by
  induction bytes generalizing s a with
  | nil => exact h
  | cons b rest ih => exact ih _ _ (memWf_writeByte s _ b h)

/-! ### Going on -/

/-- A composed outcome is a next state exactly when the first part is, and then the continuation's. -/
theorem thenNext_eq_next {o : Result} {f : State → State} {t : State} :
    thenNext o f = .next t ↔ ∃ u, o = .next u ∧ f u = t := by
  cases o <;> simp [thenNext]

@[simp] theorem thenNext_next (f : State → State) : thenNext (.next s) f = .next (f s) := rfl

end Sys2Proof.Machine
end

