-- ==== Sys2Proof/Laws/Display.lean ====
section
/-! SUPPORT. What drawing does to memory: the frame of the pixel operations and of a whole sprite (R111). -/

namespace Sys2Proof.Machine

variable (s : State)

/-- The byte of a pixel of the grid, as a number (R35). -/
theorem pixelAddr_toNat {col row : Nat} (hc : col < cols) (hr : row < rows) :
    (pixelAddr col row).toNat = fbBase + 8 * row + col / 8 := by
  simp only [pixelAddr, ea_toNat, fbBase, cols, rows] at *
  omega

/-- A pixel of the grid lies in the frame buffer (R34, R35). -/
theorem pixelAddr_inFrameBuffer {col row : Nat} (hc : col < cols) (hr : row < rows) :
    InFrameBuffer (pixelAddr col row) := by
  rw [InFrameBuffer, pixelAddr_toNat hc hr]
  omega

/-- Different pixels of the grid are different bits of memory (R35). -/
theorem pixel_injective {c r c' r' : Nat} (hc : c < cols) (hr : r < rows) (hc' : c' < cols) (hr' : r' < rows)
    (ha : pixelAddr c r = pixelAddr c' r') (hb : pixelBit c = pixelBit c') : c = c' ∧ r = r' := by
  have h := congrArg BitVec.toNat ha
  rw [pixelAddr_toNat hc hr, pixelAddr_toNat hc' hr'] at h
  simp only [pixelBit, cols, rows] at *
  omega

theorem onlyChanges_flipPixel (col row : Nat) : OnlyChanges [.mem] s (s.flipPixel col row) :=
  onlyChanges_writeByte s _ _

/-- Flipping a pixel of the grid inverts it and leaves every other pixel of the grid as it was (R111). -/
theorem pixel_flipPixel {c r c' r' : Nat} (hc : c < cols) (hr : r < rows) (hc' : c' < cols) (hr' : r' < rows) :
    (s.flipPixel c r).pixel c' r' = (s.pixel c' r' ^^ decide (c' = c ∧ r' = r)) := by
  unfold State.flipPixel State.pixel
  rw [State.readByte_writeByte]
  have hlt : pixelBit c' < 8 := by simp only [pixelBit]; omega
  split
  · next ha =>
    rw [BitVec.getLsbD_xor, ha, BitVec.getLsbD_twoPow]
    congr 1
    by_cases hb : pixelBit c = pixelBit c'
    · obtain ⟨h₁, h₂⟩ := pixel_injective hc' hr' hc hr ha hb.symm
      simp [h₁, h₂, hb.symm ▸ hlt]
    · have hne : ¬ (c' = c ∧ r' = r) := fun h => hb (by rw [h.1])
      simp [hne, hb]
  · next ha =>
    have hne : ¬ (c' = c ∧ r' = r) := fun h => ha (by rw [h.1, h.2])
    simp [hne]

/-! ### One pixel, one row, the sprite

Each of the three keeps a property of states that flipping a pixel of the grid keeps. -/

/-- What every flip of a pixel of the grid keeps, one pixel of a sprite keeps. -/
theorem drawPixel_keeps {P : State → Prop} (hP : ∀ u c r, c < cols → r < rows → P u → P (u.flipPixel c r))
    {vx row : Nat} (hrow : row < rows) (sprite : Byte) (acc : State × Bool) (b : Nat) (h : P acc.1) :
    P (drawPixel vx row sprite acc b).1 := by
  unfold drawPixel
  split
  · next hd => exact hP _ _ _ hd.1 hrow h
  · exact h

/-- … and one row. -/
theorem drawRow_keeps {P : State → Prop} (hP : ∀ u c r, c < cols → r < rows → P u → P (u.flipPixel c r))
    (vx row : Nat) (sprite : Byte) (acc : State × Bool) (h : P acc.1) : P (drawRow vx row sprite acc).1 := by
  unfold drawRow
  split
  · next hrow =>
    have key : ∀ (l : List Nat) (acc : State × Bool), P acc.1 → P (l.foldl (drawPixel vx row sprite) acc).1 := by
      intro l
      induction l with
      | nil => exact fun _ h => h
      | cons b rest ih => exact fun acc h => ih _ (drawPixel_keeps hP hrow sprite acc b h)
    exact key _ acc h
  · exact h

/-- … and the whole sprite. -/
theorem drawSprite_keeps {P : State → Prop} (hP : ∀ u c r, c < cols → r < rows → P u → P (u.flipPixel c r))
    (vx vy base n : Nat) (h : P s) : P (drawSprite vx vy base s n).1 := by
  induction n with
  | zero => exact h
  | succ n ih => exact drawRow_keeps hP _ _ _ _ ih

theorem onlyChanges_drawSprite (vx vy base n : Nat) : OnlyChanges [.mem] s (drawSprite vx vy base s n).1 :=
  drawSprite_keeps (P := fun u => OnlyChanges [.mem] s u) s
    (fun u c r _ _ h => h.trans (onlyChanges_flipPixel u c r)) vx vy base n (OnlyChanges.refl s _)

/-- Drawing writes only the frame buffer (R111). -/
theorem drawSprite_keepsBytes (vx vy base n : Nat) : KeepsBytesExcept InFrameBuffer s (drawSprite vx vy base s n).1 := by
  refine drawSprite_keeps (P := fun u => KeepsBytesExcept InFrameBuffer s u) s ?_ vx vy base n (fun _ _ => rfl)
  intro u c r hc hr h a ha
  have hne : a ≠ pixelAddr c r := fun e => ha (e ▸ pixelAddr_inFrameBuffer hc hr)
  exact (State.readByte_writeByte_other u _ hne).trans (h a ha)

theorem memWf_drawSprite (vx vy base n : Nat) (h : Memory.wf s.cfg.font s.mem = true) :
    Memory.wf (drawSprite vx vy base s n).1.cfg.font (drawSprite vx vy base s n).1.mem = true :=
  drawSprite_keeps (P := fun u => Memory.wf u.cfg.font u.mem = true) s
    (fun u _ _ _ _ h => memWf_writeByte u _ _ h) vx vy base n h

end Sys2Proof.Machine
end

