-- ==== Sys2Proof/Laws/Index.lean ====
section
/-! SUPPORT. What the register block operations of `Fx55` and `Fx65` do (R104, R105). -/

namespace Sys2Proof.Machine

variable (s : State)

/-- The block V0 to Vx holds exactly the registers up to x. -/
@[simp] theorem mem_regBlock (x r : RegIdx) : r ∈ regBlock x ↔ r ≤ x := by
  simp [regBlock, List.mem_finRange]

theorem regBlock_nodup (x : RegIdx) : (regBlock x).Nodup := (List.nodup_finRange 16).filter _

/-- Two registers of a block lie at different addresses, wherever the block starts (R104). -/
theorem ea_reg_ne (base : Nat) {q r : RegIdx} (h : q ≠ r) : ea (base + q.val) ≠ ea (base + r.val) := by
  rw [Ne, ea_eq_iff]
  have := Fin.val_ne_of_ne h
  omega

theorem onlyChanges_storeRegs (base : Nat) (l : List RegIdx) : OnlyChanges [.mem] s (s.storeRegs base l) := by
  induction l generalizing s with
  | nil => exact OnlyChanges.refl s _
  | cons r rest ih => exact (onlyChanges_writeByte s _ _).trans (ih _)

/-- Bytes outside the block are unchanged (R104). -/
theorem readByte_storeRegs_other (base : Nat) (l : List RegIdx) (a : Addr) (h : ∀ r ∈ l, a ≠ ea (base + r.val)) :
    (s.storeRegs base l).readByte a = s.readByte a := by
  induction l generalizing s with
  | nil => rfl
  | cons r rest ih =>
    rw [State.storeRegs, ih _ (fun q hq => h q (List.mem_cons_of_mem _ hq))]
    exact State.readByte_writeByte_other s _ (h r (List.mem_cons_self ..))

/-- Register r of the list is stored at `base + r` (R104). -/
theorem readByte_storeRegs (base : Nat) (l : List RegIdx) (hl : l.Nodup) (r : RegIdx) (hr : r ∈ l) :
    (s.storeRegs base l).readByte (ea (base + r.val)) = s.readV r := by
  induction l generalizing s with
  | nil => simp at hr
  | cons q rest ih =>
    obtain ⟨hq, hrest⟩ := List.nodup_cons.1 hl
    rw [State.storeRegs]
    rcases List.mem_cons.1 hr with rfl | hr
    · have hne : ∀ p ∈ rest, ea (base + r.val) ≠ ea (base + p.val) :=
        fun p hp => ea_reg_ne base (fun e => hq (e ▸ hp))
      rw [readByte_storeRegs_other _ _ _ _ hne]
      simp
    · rw [ih _ hrest hr, State.readV_writeByte]

theorem memWf_storeRegs (base : Nat) (l : List RegIdx) (h : Memory.wf s.cfg.font s.mem = true) :
    Memory.wf (s.storeRegs base l).cfg.font (s.storeRegs base l).mem = true := by
  induction l generalizing s with
  | nil => exact h
  | cons r rest ih => exact ih _ (memWf_writeByte s _ _ h)

theorem onlyChanges_loadRegs (base : Nat) (l : List RegIdx) : OnlyChanges [.v] s (s.loadRegs base l) := by
  induction l generalizing s with
  | nil => exact OnlyChanges.refl s _
  | cons r rest ih => exact (onlyChanges_writeV s _ _).trans (ih _)

/-- Memory itself, as data, is untouched by a load. -/
@[simp] theorem mem_loadRegs (base : Nat) (l : List RegIdx) : (s.loadRegs base l).mem = s.mem := by
  induction l generalizing s with
  | nil => rfl
  | cons r rest ih => rw [State.loadRegs, ih, State.writeV_mem]

/-- A listed register receives the byte at `base + r`, and the others keep their values (R105). -/
theorem readV_loadRegs (base : Nat) (l : List RegIdx) (r : RegIdx) :
    (s.loadRegs base l).readV r = if r ∈ l then s.readByte (ea (base + r.val)) else s.readV r := by
  induction l generalizing s with
  | nil => simp [State.loadRegs]
  | cons q rest ih =>
    rw [State.loadRegs, ih]
    by_cases hr : r ∈ rest
    · simp [hr]
    · by_cases hq : r = q
      · subst hq; simp [hr]
      · simp [hr, hq, State.readV_writeV_other _ _ hq]

end Sys2Proof.Machine
end

