-- ==== Sys2Proof/Laws/Exec.lean ====
section
/-! SUPPORT. What the execute phase of any instruction can do: it always answers a next state, and changes at most the
items named for it here. -/

namespace Sys2Proof

open Machine

/-- The items of R10 the instruction may change in its execute phase. -/
def Instr.mayChange : Instr → List Item
  | .op00E0 | .opFx33 _ | .opFx55 _ => [.mem]
  | .op00EE | .op2nnn _ => [.pc, .stack, .status]
  | .op1nnn _ | .opBnnn _ | .op3xkk _ _ | .op4xkk _ _ | .op5xy0 _ _ | .op9xy0 _ _ | .opEx9E _ | .opExA1 _ => [.pc]
  | .op6xkk _ _ | .op7xkk _ _ | .opCxkk _ _ | .op8xy0 _ _ | .op8xy1 _ _ | .op8xy2 _ _ | .op8xy3 _ _ => [.v]
  | .op8xy4 _ _ | .op8xy5 _ _ | .op8xy6 _ _ | .op8xy7 _ _ | .op8xyE _ _ | .opFx07 _ | .opFx65 _ => [.v]
  | .opAnnn _ | .opFx1E _ | .opFx29 _ => [.i]
  | .opDxyn _ _ _ => [.mem, .v]
  | .opFx0A _ => [.status]
  | .opFx15 _ => [.dt]
  | .opFx18 _ => [.st]

namespace Machine

/-- What holds of the state answered holds of the next state. -/
theorem of_next {P : State → Prop} {u t : State} (h : (.next u : Result) = .next t) (p : P u) : P t :=
  Host.Outcome.next.inj h ▸ p

theorem onlyChanges_skipIf (s : State) (c : Bool) : OnlyChanges [.pc] s (s.skipIf c) := by
  rw [skipIf_eq]
  exact onlyChanges_setPc s _

theorem onlyChanges_exec00EE {s t : State} (h : exec00EE s = .next t) : OnlyChanges [.pc, .stack, .status] s t := by
  unfold exec00EE at h
  split at h
  · exact of_next h ((onlyChanges_raise s _).mono (by simp))
  · exact of_next h (((onlyChanges_setStack s _).mono (by simp)).trans ((onlyChanges_setPc _ _).mono (by simp)))

theorem onlyChanges_exec2nnn {nnn : Addr} {s t : State} (h : exec2nnn nnn s = .next t) :
    OnlyChanges [.pc, .stack, .status] s t := by
  unfold exec2nnn at h
  split at h
  · exact of_next h ((onlyChanges_raise s _).mono (by simp))
  · exact of_next h (((onlyChanges_setStack s _).mono (by simp)).trans ((onlyChanges_setPc _ _).mono (by simp)))

theorem onlyChanges_execDxyn {x y : RegIdx} {n : Fin 16} {s t : State} (h : execDxyn x y n s = .next t) :
    OnlyChanges [.mem, .v] s t :=
  of_next h (((onlyChanges_drawSprite s _ _ _ _).mono (by simp)).trans ((onlyChanges_writeV _ _ _).mono (by simp)))

/-- The frame of every instruction, in one place. -/
theorem exec_onlyChanges {i : Instr} {s t : State} (h : exec i s = .next t) : OnlyChanges i.mayChange s t := by
  cases i with
  | op00E0 => exact of_next h (onlyChanges_zeroBytes s _ _)
  | op00EE => exact onlyChanges_exec00EE h
  | op2nnn nnn => exact onlyChanges_exec2nnn h
  | opDxyn x y n => exact onlyChanges_execDxyn h
  | op1nnn _ | opBnnn _ => exact of_next h (onlyChanges_setPc s _)
  | op3xkk _ _ | op4xkk _ _ | op5xy0 _ _ | op9xy0 _ _ | opEx9E _ | opExA1 _ =>
    exact of_next h (onlyChanges_skipIf s _)
  | op6xkk _ _ | op7xkk _ _ | opCxkk _ _ | op8xy0 _ _ | op8xy1 _ _ | op8xy2 _ _ | op8xy3 _ _ | opFx07 _ =>
    exact of_next h (onlyChanges_writeV s _ _)
  | op8xy4 _ _ | op8xy5 _ _ | op8xy6 _ _ | op8xy7 _ _ | op8xyE _ _ =>
    exact of_next h (onlyChanges_writeResultFlag s _ _ _)
  | opAnnn _ | opFx1E _ | opFx29 _ => exact of_next h (onlyChanges_setI s _)
  | opFx0A _ => exact of_next h (onlyChanges_setStatus s _)
  | opFx15 _ => exact of_next h (onlyChanges_setDT s _)
  | opFx18 _ => exact of_next h (onlyChanges_setST s _)
  | opFx33 _ => exact of_next h (onlyChanges_writeBytes s _ _)
  | opFx55 _ => exact of_next h (onlyChanges_storeRegs s _ _)
  | opFx65 _ => exact of_next h (onlyChanges_loadRegs s _ _)

/-- No instruction faults and none is refused. -/
theorem exec_next (i : Instr) (s : State) : ∃ t, exec i s = .next t := by
  cases i
  case op00EE => simp only [exec, exec00EE]; split <;> exact ⟨_, rfl⟩
  case op2nnn => simp only [exec, exec2nnn]; split <;> exact ⟨_, rfl⟩
  all_goals exact ⟨_, rfl⟩

/-- Every instruction keeps the canonical form of memory. -/
theorem exec_memWf {i : Instr} {s t : State} (hm : Memory.wf s.cfg.font s.mem = true) (h : exec i s = .next t) :
    Memory.wf t.cfg.font t.mem = true := by
  let P : State → Prop := fun t => Memory.wf t.cfg.font t.mem = true
  cases i with
  | op00E0 | opFx33 _ => exact of_next (P := P) h (memWf_writeBytes s _ _ hm)
  | opFx55 _ => exact of_next (P := P) h (memWf_storeRegs s _ _ hm)
  | opDxyn _ _ _ => exact of_next (P := P) h (memWf_drawSprite s _ _ _ _ hm)
  | opFx65 _ =>
    refine of_next (P := P) h ?_
    show Memory.wf _ _ = true
    rw [mem_loadRegs, (onlyChanges_loadRegs s _ _).2.cfg]
    exact hm
  | op00EE =>
    simp only [exec, exec00EE, raise_eq] at h
    split at h
    · exact of_next (P := P) h (by show Memory.wf _ _ = true; split <;> exact hm)
    · exact of_next (P := P) h hm
  | op2nnn _ =>
    simp only [exec, exec2nnn, raise_eq] at h
    split at h
    · exact of_next (P := P) h (by show Memory.wf _ _ = true; split <;> exact hm)
    · exact of_next (P := P) h hm
  | op3xkk _ _ | op4xkk _ _ | op5xy0 _ _ | op9xy0 _ _ | opEx9E _ | opExA1 _ =>
    exact of_next (P := P) h (by show Memory.wf _ _ = true; rw [skipIf_eq]; exact hm)
  | op1nnn _ | opBnnn _ | op6xkk _ _ | op7xkk _ _ | opCxkk _ _ | op8xy0 _ _ | op8xy1 _ _ | op8xy2 _ _ | op8xy3 _ _
  | op8xy4 _ _ | op8xy5 _ _ | op8xy6 _ _ | op8xy7 _ _ | op8xyE _ _ | opFx07 _ | opAnnn _ | opFx1E _ | opFx29 _
  | opFx0A _ | opFx15 _ | opFx18 _ => exact of_next (P := P) h hm

end Machine

end Sys2Proof
end

