-- ==== Sys2Proof/Laws/Iterate.lean ====
section
/-! SUPPORT. What one iteration can do (R133, R135): the five cases, said once. -/

namespace Sys2Proof.Machine

variable (s : State)

/-! ### Sampling the inputs -/

@[simp] theorem sampleInputs_inputs : s.sampleInputs.inputs = s.nextInputs := by
  unfold State.sampleInputs; split <;> rfl

@[simp] theorem sampleInputs_mem : s.sampleInputs.mem = s.mem := by unfold State.sampleInputs; split <;> rfl
@[simp] theorem sampleInputs_v : s.sampleInputs.v = s.v := by unfold State.sampleInputs; split <;> rfl
@[simp] theorem sampleInputs_i : s.sampleInputs.i = s.i := by unfold State.sampleInputs; split <;> rfl
@[simp] theorem sampleInputs_pc : s.sampleInputs.pc = s.pc := by unfold State.sampleInputs; split <;> rfl
@[simp] theorem sampleInputs_stack : s.sampleInputs.stack = s.stack := by unfold State.sampleInputs; split <;> rfl
@[simp] theorem sampleInputs_dt : s.sampleInputs.dt = s.dt := by unfold State.sampleInputs; split <;> rfl
@[simp] theorem sampleInputs_st : s.sampleInputs.st = s.st := by unfold State.sampleInputs; split <;> rfl
@[simp] theorem sampleInputs_status : s.sampleInputs.status = s.status := by unfold State.sampleInputs; split <;> rfl
@[simp] theorem sampleInputs_cfg : s.sampleInputs.cfg = s.cfg := by unfold State.sampleInputs; split <;> rfl

@[simp] theorem readV_sampleInputs (r : RegIdx) : s.sampleInputs.readV r = s.readV r := by
  simp [State.readV]

@[simp] theorem readByte_sampleInputs (a : Addr) : s.sampleInputs.readByte a = s.readByte a := by
  simp [State.readByte]

/-! ### The cases of a step -/

theorem step_of_halted (h : s.status = .halted) : step s = .next s.stopped := by
  simp [step, loopPass, h]

theorem step_of_quit (h : s.status ≠ .halted) (hq : s.nextInputs.quit = true) :
    step s = .next (s.sampleInputs.halt.setPresent false) := by
  simp [step, loopPass, h, iterate, hq]

theorem step_of_waiting {r : RegIdx} (h : s.status = .waitingForKey r) (hq : s.nextInputs.quit = false) :
    step s = .next ((s.sampleInputs.keyEvent r).setPresent false) := by
  simp [step, loopPass, h, iterate, hq]

theorem step_of_running (h : s.status = .running) (hq : s.nextInputs.quit = false) :
    step s = thenNext (engineStep s.sampleInputs) (·.setPresent true) := by
  simp [step, loopPass, h, iterate, hq]

/-- Outside the range the engine halts and does nothing else (R66). -/
theorem engineStep_outOfRange (h : pcLimit ≤ s.pc.toNat) : engineStep s = .next (s.setStatus .halted) := by
  simp [engineStep, State.pcInRange, Nat.not_lt.2 h, State.raise, State.halt]

/-- In range the engine executes the fetched word with pc advanced, and then checks the timers (R72). -/
theorem engineStep_inRange (h : s.pc.toNat < pcLimit) :
    engineStep s = thenNext (executeWord s.fetched s.advance) State.timerCheck := by
  simp [engineStep, State.pcInRange, h, State.readWord_ok s h, State.fetched]

@[simp] theorem fetched_sampleInputs : s.sampleInputs.fetched = s.fetched := by
  simp [State.fetched]

/-- The key event writes the first edge's key and runs the engine, or changes nothing (R137). -/
theorem keyEvent_eq (r : RegIdx) : s.keyEvent r =
    match s.inputs.edges with
    | [] => s
    | k :: _ => (s.writeV r (BitVec.ofNat 8 k.val)).setStatus .running := rfl

/-! ### A step that fetches -/

theorem same_sampleInputs (it : Item) : it.Same s s.sampleInputs := by cases it <;> simp [Item.Same]

theorem same_atExecute {it : Item} (h : it ≠ .pc) : it.Same s s.atExecute :=
  (same_sampleInputs s it).trans ((onlyChanges_setPc _ _).1 it (by simpa using h))

@[simp] theorem atExecute_inputs : s.atExecute.inputs = s.nextInputs := by simp [State.atExecute]
@[simp] theorem atExecute_cfg : s.atExecute.cfg = s.cfg := by simp [State.atExecute]
@[simp] theorem atExecute_status : s.atExecute.status = s.status := by simp [State.atExecute]
@[simp] theorem atExecute_stack : s.atExecute.stack = s.stack := by simp [State.atExecute]
@[simp] theorem atExecute_mem : s.atExecute.mem = s.mem := by simp [State.atExecute]
@[simp] theorem atExecute_v : s.atExecute.v = s.v := by simp [State.atExecute]
@[simp] theorem atExecute_dt : s.atExecute.dt = s.dt := by simp [State.atExecute]
@[simp] theorem atExecute_st : s.atExecute.st = s.st := by simp [State.atExecute]

@[simp] theorem readV_atExecute (r : RegIdx) : s.atExecute.readV r = s.readV r := same_atExecute s (it := .v) (by simp) r

theorem atExecute_pc (hp : s.pc.toNat < pcLimit) : s.atExecute.pc.toNat = s.pc.toNat + 2 := by
  simp only [State.atExecute, State.advance_pc, sampleInputs_pc, pcLimit] at *
  rw [BitVec.toNat_add]
  simp
  omega

/-- A step that is due and in range executes the fetched word, then checks the timers and presents (R72, R135). -/
theorem step_of_due (h : StepDue s) (hp : s.pc.toNat < pcLimit) :
    step s = thenNext (executeWord s.fetched s.atExecute) (fun t => t.timerCheck.setPresent true) := by
  rw [step_of_running s h.running h.noQuit, engineStep_inRange _ (by simpa using hp), fetched_sampleInputs]
  show thenNext (thenNext (executeWord s.fetched s.atExecute) _) _ = _
  cases executeWord s.fetched s.atExecute <;> rfl

/-- The end of such a step changes no item but the timers. -/
theorem same_timerCheck_present (b : Bool) {it : Item} (h₁ : it ≠ .dt) (h₂ : it ≠ .st) :
    it.Same s (s.timerCheck.setPresent b) := by
  refine Item.Same.trans ((onlyChanges_timerCheck s).1 it (by simp [h₁, h₂])) ?_
  cases it <;> simp [Item.Same]

theorem dt_timerCheck_present (b : Bool) : (s.timerCheck.setPresent b).dt.toNat =
    if s.inputs.tickDue then s.dt.toNat - 1 else s.dt.toNat := by
  rw [timerCheck_eq]; split <;> simp [countDown_toNat]

theorem st_timerCheck_present (b : Bool) : (s.timerCheck.setPresent b).st.toNat =
    if s.inputs.tickDue then s.st.toNat - 1 else s.st.toNat := by
  rw [timerCheck_eq]; split <;> simp [countDown_toNat]

/-- The execute phase of any word answers a next state and leaves the surroundings alone (R69, R70). -/
theorem executeWord_next (word : Word) : ∃ t, executeWord word s = .next t ∧ SameSurroundings s t := by
  unfold executeWord
  split
  · next i _ =>
    obtain ⟨t, ht⟩ := exec_next i s
    exact ⟨t, ht, (exec_onlyChanges ht).2⟩
  · exact ⟨_, rfl, (onlyChanges_raise s _).2⟩

end Sys2Proof.Machine
end

