-- ==== Sys2Proof/Laws/PerInstr.lean ====
section
/-! SUPPORT. Facts made per instruction, one lemma per constructor of Instr (LAWS.json): the word of an instruction is an
instance of the instruction's own row of the opcode map (R54). -/

namespace Sys2Proof

/-- The row of the opcode map that an instruction is an instance of (R54): pattern and mask. -/
def rowOf : Instr → Word × Word
  | .op00E0 => (0x00E0, 0xFFFF)
  | .op00EE => (0x00EE, 0xFFFF)
  | .op1nnn _ => (0x1000, 0xF000)
  | .op2nnn _ => (0x2000, 0xF000)
  | .op3xkk _ _ => (0x3000, 0xF000)
  | .op4xkk _ _ => (0x4000, 0xF000)
  | .op5xy0 _ _ => (0x5000, 0xF00F)
  | .op6xkk _ _ => (0x6000, 0xF000)
  | .op7xkk _ _ => (0x7000, 0xF000)
  | .op8xy0 _ _ => (0x8000, 0xF00F)
  | .op8xy1 _ _ => (0x8001, 0xF00F)
  | .op8xy2 _ _ => (0x8002, 0xF00F)
  | .op8xy3 _ _ => (0x8003, 0xF00F)
  | .op8xy4 _ _ => (0x8004, 0xF00F)
  | .op8xy5 _ _ => (0x8005, 0xF00F)
  | .op8xy6 _ _ => (0x8006, 0xF00F)
  | .op8xy7 _ _ => (0x8007, 0xF00F)
  | .op8xyE _ _ => (0x800E, 0xF00F)
  | .op9xy0 _ _ => (0x9000, 0xF00F)
  | .opAnnn _ => (0xA000, 0xF000)
  | .opBnnn _ => (0xB000, 0xF000)
  | .opCxkk _ _ => (0xC000, 0xF000)
  | .opDxyn _ _ _ => (0xD000, 0xF000)
  | .opEx9E _ => (0xE09E, 0xF0FF)
  | .opExA1 _ => (0xE0A1, 0xF0FF)
  | .opFx07 _ => (0xF007, 0xF0FF)
  | .opFx0A _ => (0xF00A, 0xF0FF)
  | .opFx15 _ => (0xF015, 0xF0FF)
  | .opFx18 _ => (0xF018, 0xF0FF)
  | .opFx1E _ => (0xF01E, 0xF0FF)
  | .opFx29 _ => (0xF029, 0xF0FF)
  | .opFx33 _ => (0xF033, 0xF0FF)
  | .opFx55 _ => (0xF055, 0xF0FF)
  | .opFx65 _ => (0xF065, 0xF0FF)

/-- The word of an instruction matches its row (R54). -/
def Laws.EncodingRow.Statement (i : Instr) : Prop := encode i &&& (rowOf i).2 = (rowOf i).1

/-! ### One lemma per format -/

theorem formatNNN_row (w : BitVec 4) (nnn : Addr) (p : Word) (hp : p.toNat = w.toNat * 0x1000) :
    formatNNN w nnn &&& 0xF000 = p := by
  apply BitVec.eq_of_toNat_eq
  rw [mask_F000_toNat, formatNNN_toNat, hp]
  omega

theorem formatXKK_row (w : BitVec 4) (x : RegIdx) (kk : Byte) (p : Word) (hp : p.toNat = w.toNat * 0x1000) :
    formatXKK w x kk &&& 0xF000 = p := by
  apply BitVec.eq_of_toNat_eq
  rw [mask_F000_toNat, formatXKK_toNat, hp]
  omega

theorem formatXYN_row (w : BitVec 4) (x y : RegIdx) (n : BitVec 4) (p : Word) (hp : p.toNat = w.toNat * 0x1000) :
    formatXYN w x y n &&& 0xF000 = p := by
  apply BitVec.eq_of_toNat_eq
  rw [mask_F000_toNat, formatXYN_toNat, hp]
  omega

theorem formatXY_row (w : BitVec 4) (x y : RegIdx) (z : BitVec 4) (p : Word)
    (hp : p.toNat = w.toNat * 0x1000 + z.toNat) : formatXYN w x y z &&& 0xF00F = p := by
  apply BitVec.eq_of_toNat_eq
  rw [mask_F00F_toNat, formatXYN_toNat, hp]
  omega

theorem formatX_row (w : BitVec 4) (x : RegIdx) (kk : Byte) (p : Word)
    (hp : p.toNat = w.toNat * 0x1000 + kk.toNat) : formatXKK w x kk &&& 0xF0FF = p := by
  apply BitVec.eq_of_toNat_eq
  rw [mask_F0FF_toNat, formatXKK_toNat, hp]
  omega

/-! ### One lemma per constructor -/

theorem Laws.EncodingRow.op00E0 : Laws.EncodingRow.Statement .op00E0 := mask_FFFF _
theorem Laws.EncodingRow.op00EE : Laws.EncodingRow.Statement .op00EE := mask_FFFF _
theorem Laws.EncodingRow.op1nnn (nnn : Addr) : Laws.EncodingRow.Statement (.op1nnn nnn) :=
  formatNNN_row _ _ _ rfl
theorem Laws.EncodingRow.op2nnn (nnn : Addr) : Laws.EncodingRow.Statement (.op2nnn nnn) :=
  formatNNN_row _ _ _ rfl
theorem Laws.EncodingRow.op3xkk (x : RegIdx) (kk : Byte) : Laws.EncodingRow.Statement (.op3xkk x kk) :=
  formatXKK_row _ _ _ _ rfl
theorem Laws.EncodingRow.op4xkk (x : RegIdx) (kk : Byte) : Laws.EncodingRow.Statement (.op4xkk x kk) :=
  formatXKK_row _ _ _ _ rfl
theorem Laws.EncodingRow.op5xy0 (x y : RegIdx) : Laws.EncodingRow.Statement (.op5xy0 x y) :=
  formatXY_row _ _ _ _ _ rfl
theorem Laws.EncodingRow.op6xkk (x : RegIdx) (kk : Byte) : Laws.EncodingRow.Statement (.op6xkk x kk) :=
  formatXKK_row _ _ _ _ rfl
theorem Laws.EncodingRow.op7xkk (x : RegIdx) (kk : Byte) : Laws.EncodingRow.Statement (.op7xkk x kk) :=
  formatXKK_row _ _ _ _ rfl
theorem Laws.EncodingRow.op8xy0 (x y : RegIdx) : Laws.EncodingRow.Statement (.op8xy0 x y) :=
  formatXY_row _ _ _ _ _ rfl
theorem Laws.EncodingRow.op8xy1 (x y : RegIdx) : Laws.EncodingRow.Statement (.op8xy1 x y) :=
  formatXY_row _ _ _ _ _ rfl
theorem Laws.EncodingRow.op8xy2 (x y : RegIdx) : Laws.EncodingRow.Statement (.op8xy2 x y) :=
  formatXY_row _ _ _ _ _ rfl
theorem Laws.EncodingRow.op8xy3 (x y : RegIdx) : Laws.EncodingRow.Statement (.op8xy3 x y) :=
  formatXY_row _ _ _ _ _ rfl
theorem Laws.EncodingRow.op8xy4 (x y : RegIdx) : Laws.EncodingRow.Statement (.op8xy4 x y) :=
  formatXY_row _ _ _ _ _ rfl
theorem Laws.EncodingRow.op8xy5 (x y : RegIdx) : Laws.EncodingRow.Statement (.op8xy5 x y) :=
  formatXY_row _ _ _ _ _ rfl
theorem Laws.EncodingRow.op8xy6 (x y : RegIdx) : Laws.EncodingRow.Statement (.op8xy6 x y) :=
  formatXY_row _ _ _ _ _ rfl
theorem Laws.EncodingRow.op8xy7 (x y : RegIdx) : Laws.EncodingRow.Statement (.op8xy7 x y) :=
  formatXY_row _ _ _ _ _ rfl
theorem Laws.EncodingRow.op8xyE (x y : RegIdx) : Laws.EncodingRow.Statement (.op8xyE x y) :=
  formatXY_row _ _ _ _ _ rfl
theorem Laws.EncodingRow.op9xy0 (x y : RegIdx) : Laws.EncodingRow.Statement (.op9xy0 x y) :=
  formatXY_row _ _ _ _ _ rfl
theorem Laws.EncodingRow.opAnnn (nnn : Addr) : Laws.EncodingRow.Statement (.opAnnn nnn) :=
  formatNNN_row _ _ _ rfl
theorem Laws.EncodingRow.opBnnn (nnn : Addr) : Laws.EncodingRow.Statement (.opBnnn nnn) :=
  formatNNN_row _ _ _ rfl
theorem Laws.EncodingRow.opCxkk (x : RegIdx) (kk : Byte) : Laws.EncodingRow.Statement (.opCxkk x kk) :=
  formatXKK_row _ _ _ _ rfl
theorem Laws.EncodingRow.opDxyn (x y : RegIdx) (n : Fin 16) : Laws.EncodingRow.Statement (.opDxyn x y n) :=
  formatXYN_row _ _ _ _ _ rfl
theorem Laws.EncodingRow.opEx9E (x : RegIdx) : Laws.EncodingRow.Statement (.opEx9E x) :=
  formatX_row _ _ _ _ rfl
theorem Laws.EncodingRow.opExA1 (x : RegIdx) : Laws.EncodingRow.Statement (.opExA1 x) :=
  formatX_row _ _ _ _ rfl
theorem Laws.EncodingRow.opFx07 (x : RegIdx) : Laws.EncodingRow.Statement (.opFx07 x) :=
  formatX_row _ _ _ _ rfl
theorem Laws.EncodingRow.opFx0A (x : RegIdx) : Laws.EncodingRow.Statement (.opFx0A x) :=
  formatX_row _ _ _ _ rfl
theorem Laws.EncodingRow.opFx15 (x : RegIdx) : Laws.EncodingRow.Statement (.opFx15 x) :=
  formatX_row _ _ _ _ rfl
theorem Laws.EncodingRow.opFx18 (x : RegIdx) : Laws.EncodingRow.Statement (.opFx18 x) :=
  formatX_row _ _ _ _ rfl
theorem Laws.EncodingRow.opFx1E (x : RegIdx) : Laws.EncodingRow.Statement (.opFx1E x) :=
  formatX_row _ _ _ _ rfl
theorem Laws.EncodingRow.opFx29 (x : RegIdx) : Laws.EncodingRow.Statement (.opFx29 x) :=
  formatX_row _ _ _ _ rfl
theorem Laws.EncodingRow.opFx33 (x : RegIdx) : Laws.EncodingRow.Statement (.opFx33 x) :=
  formatX_row _ _ _ _ rfl
theorem Laws.EncodingRow.opFx55 (x : RegIdx) : Laws.EncodingRow.Statement (.opFx55 x) :=
  formatX_row _ _ _ _ rfl
theorem Laws.EncodingRow.opFx65 (x : RegIdx) : Laws.EncodingRow.Statement (.opFx65 x) :=
  formatX_row _ _ _ _ rfl

end Sys2Proof
end

