-- ==== Sys2Proof/Tests/Slice0.lean ====
section
/-! SUPPORT. The model's own tests: ill-formed data is refused, every instruction's word decodes to it, the vectors of
95_test_vectors.md (named in each docstring) hold in one step, and every obligation's hypotheses are met by a concrete
state. Expected values are the spec's. -/

namespace Sys2Proof.Tests

open Machine

/-! ### Helpers -/

/-- Registers set in a state. -/
def withRegs (s : State) (l : List (RegIdx × Byte)) : State := l.foldl (fun s p => s.writeV p.1 p.2) s

/-- Bytes set in a state. -/
def withMem (s : State) (l : List (Addr × Byte)) : State := l.foldl (fun s p => s.writeByte p.1 p.2) s

/-- The reset state with I and some registers and bytes set. -/
def start (i : Word) (regs : List (RegIdx × Byte)) (mem : List (Addr × Byte)) : State :=
  withMem (withRegs (State.reset.setI i) regs) mem

/-- A state about to run a word, with the inputs of its next iteration. -/
def about (s : State) (inp : Inputs) (word : Nat) : State := ({ s with schedule := [inp] }).withFetchWord 16 word

/-- What one step of a state about to run a word leaves, seen through a function. -/
def seen {α : Type} (s : State) (inp : Inputs) (word : Nat) (f : State → α) : Option α :=
  match step (about s inp word) with
  | .next t => some (f t)
  | .fault _ => none
  | .refused _ => none

/-- What one iteration leaves, with no word placed. -/
def iterated {α : Type} (s : State) (inp : Inputs) (f : State → α) : Option α :=
  match step { s with schedule := [inp] } with
  | .next t => some (f t)
  | .fault _ => none
  | .refused _ => none

/-- Quiet inputs but for `tick_due`. -/
def ticking : Inputs := { quietInputs with tickDue := true }

/-- Quiet inputs but for the random byte. -/
def random (b : Byte) : Inputs := { quietInputs with rnd := b }

/-- Quiet inputs with one key down. -/
def holding (k : Key) : Inputs := { quietInputs with keys := (Vector.replicate 16 false).set k true }

/-- Quiet inputs with every key down. -/
def holdingAll : Inputs := { quietInputs with keys := Vector.replicate 16 true }

/-- Quiet inputs with key-down edges. -/
def pressing (l : List Key) : Inputs := { quietInputs with edges := l }

/-- Quiet inputs but for the quit signal. -/
def quitting : Inputs := { quietInputs with quit := true }

/-- The reset state with STRICT. -/
def strictReset : State := State.init { defaultConfig with strict := true }

/-! ### What is ill formed is refused (WellFormed) -/

theorem test_undef_0nnn_refused : wordDefined 0x0000 = false ∧ wordDefined 0x00E1 = false := by decide
theorem test_undef_5xyz_refused : wordDefined 0x5AB1 = false ∧ wordDefined 0x5AB0 = true := by decide
theorem test_undef_8xyz_refused : wordDefined 0x8128 = false ∧ wordDefined 0x812F = false := by decide
theorem test_undef_9xyz_refused : wordDefined 0x9AB1 = false ∧ wordDefined 0x9AB0 = true := by decide
theorem test_undef_Exkk_refused : wordDefined 0xE19F = false ∧ wordDefined 0xE1A1 = true := by decide
theorem test_undef_Fxkk_refused : wordDefined 0xF10B = false ∧ wordDefined 0xFFFF = false := by decide
theorem test_stack_depth_zero_refused : Config.wf { defaultConfig with stackDepth := 0 } = false := by decide
theorem test_default_config_accepted : Config.wf defaultConfig = true := by decide
theorem test_long_rom_refused : romFits (List.replicate 0xCA1 0) = false := by
  simp only [romFits, List.length_replicate]; decide
theorem test_longest_rom_accepted : romFits (List.replicate 0xCA0 0) = true := by
  simp only [romFits, List.length_replicate]; decide
theorem test_memory_order_refused : Memory.wf defaultFont [(0x201, 5), (0x200, 6)] = false := by decide
theorem test_memory_repeat_refused : Memory.wf defaultFont [(0x200, 5), (0x200, 6)] = false := by decide
theorem test_memory_outside_refused : Memory.wf defaultFont [(0x1000, 5)] = false := by decide
theorem test_memory_reset_byte_refused : Memory.wf defaultFont [(0x050, 0xF0)] = false := by decide
theorem test_memory_cell_accepted : Memory.wf defaultFont [(0x200, 5), (0xFFF, 6)] = true := by decide

/-! ### Decoding: words written out from the formats of R52 and the rows of R54 -/

theorem test_decode_00E0 : decodeWord 0b0000000011100000 = .ok (.op00E0) := by decide
theorem test_decode_00EE : decodeWord 0b0000000011101110 = .ok (.op00EE) := by decide
theorem test_decode_1nnn : decodeWord 0b0001101010111100 = .ok (.op1nnn 0xABC) := by decide
theorem test_decode_2nnn : decodeWord 0b0010001101000101 = .ok (.op2nnn 0x345) := by decide
theorem test_decode_3xkk : decodeWord 0b0011101011110001 = .ok (.op3xkk 10 0xF1) := by decide
theorem test_decode_4xkk : decodeWord 0b0100101100011111 = .ok (.op4xkk 11 0x1F) := by decide
theorem test_decode_5xy0 : decodeWord 0b0101101010110000 = .ok (.op5xy0 10 11) := by decide
theorem test_decode_6xkk : decodeWord 0b0110111101111011 = .ok (.op6xkk 15 0x7B) := by decide
theorem test_decode_7xkk : decodeWord 0b0111001100000001 = .ok (.op7xkk 3 0x01) := by decide
theorem test_decode_8xy0 : decodeWord 0b1000000100100000 = .ok (.op8xy0 1 2) := by decide
theorem test_decode_8xy1 : decodeWord 0b1000000100100001 = .ok (.op8xy1 1 2) := by decide
theorem test_decode_8xy2 : decodeWord 0b1000000100100010 = .ok (.op8xy2 1 2) := by decide
theorem test_decode_8xy3 : decodeWord 0b1000000100100011 = .ok (.op8xy3 1 2) := by decide
theorem test_decode_8xy4 : decodeWord 0b1000000100100100 = .ok (.op8xy4 1 2) := by decide
theorem test_decode_8xy5 : decodeWord 0b1000000100100101 = .ok (.op8xy5 1 2) := by decide
theorem test_decode_8xy6 : decodeWord 0b1000000100100110 = .ok (.op8xy6 1 2) := by decide
theorem test_decode_8xy7 : decodeWord 0b1000000100100111 = .ok (.op8xy7 1 2) := by decide
theorem test_decode_8xyE : decodeWord 0b1000000100101110 = .ok (.op8xyE 1 2) := by decide
theorem test_decode_9xy0 : decodeWord 0b1001101010110000 = .ok (.op9xy0 10 11) := by decide
theorem test_decode_Annn : decodeWord 0b1010001001010000 = .ok (.opAnnn 0x250) := by decide
theorem test_decode_Bnnn : decodeWord 0b1011111100001001 = .ok (.opBnnn 0xF09) := by decide
theorem test_decode_Cxkk : decodeWord 0b1100000111110000 = .ok (.opCxkk 1 0xF0) := by decide
theorem test_decode_Dxyn : decodeWord 0b1101110000110101 = .ok (.opDxyn 12 3 5) := by decide
theorem test_decode_Ex9E : decodeWord 0b1110011110011110 = .ok (.opEx9E 7) := by decide
theorem test_decode_ExA1 : decodeWord 0b1110011110100001 = .ok (.opExA1 7) := by decide
theorem test_decode_Fx07 : decodeWord 0b1111001000000111 = .ok (.opFx07 2) := by decide
theorem test_decode_Fx0A : decodeWord 0b1111001000001010 = .ok (.opFx0A 2) := by decide
theorem test_decode_Fx15 : decodeWord 0b1111001000010101 = .ok (.opFx15 2) := by decide
theorem test_decode_Fx18 : decodeWord 0b1111001000011000 = .ok (.opFx18 2) := by decide
theorem test_decode_Fx1E : decodeWord 0b1111001000011110 = .ok (.opFx1E 2) := by decide
theorem test_decode_Fx29 : decodeWord 0b1111001000101001 = .ok (.opFx29 2) := by decide
theorem test_decode_Fx33 : decodeWord 0b1111001000110011 = .ok (.opFx33 2) := by decide
theorem test_decode_Fx55 : decodeWord 0b1111001001010101 = .ok (.opFx55 2) := by decide
theorem test_decode_Fx65 : decodeWord 0b1111001001100101 = .ok (.opFx65 2) := by decide
theorem test_decode_undef_0nnn : decodeWord 0b0000000100100011 = .error .undef0nnn := by decide
theorem test_decode_undef_5xyz : decodeWord 0b0101101010110001 = .error .undef5xyz := by decide
theorem test_decode_undef_8xyz : decodeWord 0b1000000100101000 = .error .undef8xyz := by decide
theorem test_decode_undef_9xyz : decodeWord 0b1001101010111111 = .error .undef9xyz := by decide
theorem test_decode_undef_Exkk : decodeWord 0b1110000110011111 = .error .undefExkk := by decide
theorem test_decode_undef_Fxkk : decodeWord 0b1111000100001011 = .error .undefFxkk := by decide
theorem test_decode_one_byte_is_truncated : decodeBytes [0x12] = .error .truncated := by decide
theorem test_decode_takes_two_bytes : decodeBytes [0x60, 0x05, 0x70] = .ok (.op6xkk 0 5, [0x70]) := by decide
theorem test_table_word : decodeTableWord 16 0x6105 = some (.op6xkk 1 5) := by decide
theorem test_table_word_undef : decodeTableWord 16 0x0000 = none := by decide

/-! ### One step: the derived vectors of 95_test_vectors.md -/

set_option maxRecDepth 8000 in
/-- Vector W1. -/
theorem test_00E0_clears :
    seen (start 0 [] [(0xEFF, 0x77), (0xF00, 0xFF), (0xFFF, 1)]) quietInputs 0x00E0 (fun t => (t.pc, t.readByte 0xEFF, t.readByte 0xF00, t.readByte 0xFFF)) = some (0x202, 0x77, 0, 0) := by decide
/-- Vector T1. -/
theorem test_00EE_pops_newest :
    seen (({ State.reset with pc := 0x400, stack := [0x30A, 0x204] })) quietInputs 0x00EE (fun t => (t.pc, t.stack)) = some (0x30A, [0x204]) := by decide
/-- Vector T2. -/
theorem test_00EE_empty_stack_halts :
    seen (State.reset) quietInputs 0x00EE (fun t => (t.pc, t.status, t.present)) = some (0x202, .halted, true) := by decide
/-- Vector T4. -/
theorem test_1nnn_last_address :
    seen (State.reset) quietInputs 0x1FFF (fun t => (t.pc, t.status)) = some (0xFFF, .running) := by decide
/-- Vector S9. -/
theorem test_1200_runs_for_ever :
    seen (State.reset) quietInputs 0x1200 (fun t => (t.pc, t.status)) = some (0x200, .running) := by decide
/-- Vector T5. -/
theorem test_2nnn_pushes_unreduced :
    seen (State.reset.setPc 0xFFE) quietInputs 0x2300 (fun t => (t.pc, t.stack)) = some (0x300, [0x1000]) := by decide
/-- Vector T6. -/
theorem test_2nnn_full_stack_drops :
    seen (State.reset.setStack (List.replicate 24 0x202)) quietInputs 0x2300 (fun t => (t.pc, t.stack.length, t.status)) = some (0x202, 24, .running) := by decide
/-- Vector T9. -/
theorem test_3xkk_equal_skips :
    seen (start 0 [(10, 0xFF)] []) quietInputs 0x3AFF (fun t => t.pc) = some (0x204) := by decide
/-- Vector T10. -/
theorem test_3xkk_unequal :
    seen (start 0 [(10, 0xFE)] []) quietInputs 0x3AFF (fun t => t.pc) = some (0x202) := by decide
/-- Vector T12. -/
theorem test_4xkk_equal :
    seen (State.reset) quietInputs 0x4A00 (fun t => t.pc) = some (0x202) := by decide
/-- Vector T13. -/
theorem test_4xkk_unequal_skips :
    seen (start 0 [(10, 1)] []) quietInputs 0x4A00 (fun t => t.pc) = some (0x204) := by decide
/-- Vector T14. -/
theorem test_5xy0_equal_skips :
    seen (start 0 [(10, 9), (11, 9)] []) quietInputs 0x5AB0 (fun t => t.pc) = some (0x204) := by decide
/-- Vector T15. -/
theorem test_5xy0_unequal :
    seen (start 0 [(10, 9), (11, 8)] []) quietInputs 0x5AB0 (fun t => t.pc) = some (0x202) := by decide
/-- Vector A1. -/
theorem test_6xkk_into_vf :
    seen (State.reset) quietInputs 0x6F7B (fun t => (t.pc, t.readV 15)) = some (0x202, 0x7B) := by decide
/-- Vector K19. -/
theorem test_6xkk_at_last_address :
    seen (State.reset.setPc 0xFFE) quietInputs 0x6105 (fun t => (t.pc, t.readV 1)) = some (0x1000, 5) := by decide
/-- Vector A2. -/
theorem test_7xkk_wraps_without_flag :
    seen (start 0 [(3, 0xFF), (15, 0x55)] []) quietInputs 0x7301 (fun t => (t.readV 3, t.readV 15)) = some (0, 0x55) := by decide
/-- Vector A3. -/
theorem test_7xkk_on_vf :
    seen (start 0 [(15, 1)] []) quietInputs 0x7FFF (fun t => t.readV 15) = some (0) := by decide
/-- Vector A4. -/
theorem test_8xy0_copies :
    seen (start 0 [(1, 0x11), (2, 0x99)] []) quietInputs 0x8120 (fun t => (t.readV 1, t.readV 2)) = some (0x99, 0x99) := by decide
/-- Vector A5. -/
theorem test_8xy1_keeps_vf :
    seen (start 0 [(1, 0x50), (2, 0x0A), (15, 7)] []) quietInputs 0x8121 (fun t => (t.readV 1, t.readV 15)) = some (0x5A, 7) := by decide
/-- Vector A6. -/
theorem test_8xy2_keeps_vf :
    seen (start 0 [(1, 0x5C), (2, 0x0F), (15, 7)] []) quietInputs 0x8122 (fun t => (t.readV 1, t.readV 15)) = some (0x0C, 7) := by decide
/-- Vector A7. -/
theorem test_8xy3_keeps_vf :
    seen (start 0 [(1, 0x5C), (2, 0xFF), (15, 7)] []) quietInputs 0x8123 (fun t => (t.readV 1, t.readV 15)) = some (0xA3, 7) := by decide
/-- Vector A9. -/
theorem test_8xy4_sum_256_carries :
    seen (start 0 [(1, 0xFF), (2, 1)] []) quietInputs 0x8124 (fun t => (t.readV 1, t.readV 15)) = some (0, 1) := by decide
/-- Vector A13. -/
theorem test_8xy4_reads_old_vf :
    seen (start 0 [(1, 0xFF), (15, 2)] []) quietInputs 0x81F4 (fun t => (t.readV 1, t.readV 15)) = some (1, 1) := by decide
/-- Vector A15. -/
theorem test_8xy5_equal_is_no_borrow :
    seen (start 0 [(1, 0x10), (2, 0x10)] []) quietInputs 0x8125 (fun t => (t.readV 1, t.readV 15)) = some (0, 1) := by decide
/-- Vector A18. -/
theorem test_8xy5_into_vf :
    seen (start 0 [(2, 3), (15, 9)] []) quietInputs 0x8F25 (fun t => t.readV 15) = some (1) := by decide
/-- Vector A20. -/
theorem test_8xy6_shifts_vy :
    seen (start 0 [(1, 0xEE), (2, 1)] []) quietInputs 0x8126 (fun t => (t.readV 1, t.readV 15)) = some (0, 1) := by decide
/-- Vector A21. -/
theorem test_8xy6_clears_vf :
    seen (start 0 [(2, 0xFE), (15, 1)] []) quietInputs 0x8126 (fun t => (t.readV 1, t.readV 15)) = some (0x7F, 0) := by decide
/-- Vector A25. -/
theorem test_8xy7_borrows :
    seen (start 0 [(1, 1), (15, 1)] []) quietInputs 0x8127 (fun t => (t.readV 1, t.readV 15)) = some (0xFF, 0) := by decide
/-- Vector A26. -/
theorem test_8xy7_no_borrow :
    seen (start 0 [(1, 3), (2, 0x0A)] []) quietInputs 0x8127 (fun t => (t.readV 1, t.readV 15)) = some (7, 1) := by decide
/-- Vector A28. -/
theorem test_8xyE_bit_7_out :
    seen (start 0 [(1, 0x33), (2, 0x80)] []) quietInputs 0x812E (fun t => (t.readV 1, t.readV 15)) = some (0, 1) := by decide
/-- Vector A29. -/
theorem test_8xyE_clears_vf :
    seen (start 0 [(1, 0x33), (2, 0x7F), (15, 1)] []) quietInputs 0x812E (fun t => (t.readV 1, t.readV 15)) = some (0xFE, 0) := by decide
/-- Vector T18. -/
theorem test_9xy0_unequal_skips :
    seen (start 0 [(10, 9), (11, 8)] []) quietInputs 0x9AB0 (fun t => t.pc) = some (0x204) := by decide
/-- Vector T19. -/
theorem test_9xy0_equal :
    seen (start 0 [(10, 9), (11, 9)] []) quietInputs 0x9AB0 (fun t => t.pc) = some (0x202) := by decide
/-- Vector M1. -/
theorem test_Annn_last_address :
    seen (State.reset) quietInputs 0xAFFF (fun t => (t.pc, t.i)) = some (0x202, 0x0FFF) := by decide
/-- Vector T21. -/
theorem test_Bnnn_not_reduced :
    seen (start 0 [(0, 0xFF)] []) quietInputs 0xBFFF (fun t => t.pc) = some (0x10FE) := by decide
/-- Vector T22. -/
theorem test_Bnnn_adds_v0 :
    seen (start 0 [(0, 4), (3, 0x80)] []) quietInputs 0xB300 (fun t => t.pc) = some (0x304) := by decide
/-- Vector A33. -/
theorem test_Cxkk_masks :
    seen (State.reset) (random 0x5A) 0xC1F0 (fun t => t.readV 1) = some (0x50) := by decide
/-- Vector A34. -/
theorem test_Cxkk_mask_zero :
    seen (start 0 [(1, 0x77)] []) (random 0xFF) 0xC100 (fun t => t.readV 1) = some (0) := by decide
/-- Vector W4. -/
theorem test_Dxyn_straddles_and_collides :
    seen (start 0x300 [(0, 4), (1, 2)] [(0x300, 0xFF), (0xF10, 1)]) quietInputs 0xD011 (fun t => (t.readV 15, t.readByte 0xF10, t.readByte 0xF11)) = some (1, 0x0E, 0xF0) := by decide
/-- Vector W17. -/
theorem test_Dxyn_reads_what_it_drew :
    seen (start 0xF00 [(0, 8)] [(0xF00, 0xF0), (0xF01, 0x3C)]) quietInputs 0xD012 (fun t => (t.readV 15, t.readByte 0xF01, t.readByte 0xF09)) = some (1, 0xCC, 0xCC) := by decide
/-- Vector K1. -/
theorem test_Ex9E_key_down_skips :
    seen (start 0 [(1, 15)] []) (holding 15) 0xE19E (fun t => t.pc) = some (0x204) := by decide
/-- Vector K3. -/
theorem test_Ex9E_no_such_key :
    seen (start 0 [(1, 16)] []) holdingAll 0xE19E (fun t => t.pc) = some (0x202) := by decide
/-- Vector K4. -/
theorem test_ExA1_key_down :
    seen (start 0 [(1, 15)] []) (holding 15) 0xE1A1 (fun t => t.pc) = some (0x202) := by decide
/-- Vector K6. -/
theorem test_ExA1_no_such_key_skips :
    seen (start 0 [(1, 0x1F)] []) holdingAll 0xE1A1 (fun t => t.pc) = some (0x204) := by decide
/-- Vector K9. -/
theorem test_Fx07_reads_before_the_check :
    seen ((State.reset.setDT 0x10).setST 1) ticking 0xF107 (fun t => (t.readV 1, t.dt, t.st)) = some (0x10, 0x0F, 0) := by decide
/-- Vector K13. -/
theorem test_Fx0A_waits :
    seen ((start 0 [(2, 0x33)] []).setDT 2) ticking 0xF20A (fun t => (t.status, t.readV 2, t.dt, t.pc)) = some (.waitingForKey 2, 0x33, 1, 0x202) := by decide
/-- Vector K10. -/
theorem test_Fx15_counts_in_the_same_step :
    seen (start 0 [(1, 0x10)] []) ticking 0xF115 (fun t => t.dt) = some (0x0F) := by decide
/-- Vector K11. -/
theorem test_Fx15_zero_stays_zero :
    seen (State.reset.setDT 5) ticking 0xF115 (fun t => t.dt) = some (0) := by decide
/-- Vector K12b. -/
theorem test_Fx18_no_tick :
    seen (start 0 [(1, 2)] []) quietInputs 0xF118 (fun t => (t.st, t.dt)) = some (2, 0) := by decide
/-- Vector K12. -/
theorem test_Fx18_counts_in_the_same_step :
    seen (start 0 [(1, 1)] []) ticking 0xF118 (fun t => t.st) = some (0) := by decide
/-- Vector M2. -/
theorem test_Fx1E_no_12_bit_mask :
    seen (start 0x0FFF [(1, 1)] []) quietInputs 0xF11E (fun t => t.i) = some (0x1000) := by decide
/-- Vector M3. -/
theorem test_Fx1E_wraps_without_flag :
    seen (start 0xFFFF [(1, 0xFF), (15, 7)] []) quietInputs 0xF11E (fun t => (t.i, t.readV 15)) = some (0x00FE, 7) := by decide
/-- Vector M5. -/
theorem test_Fx29_no_mask :
    seen (start 0 [(1, 0x10)] []) quietInputs 0xF129 (fun t => t.i) = some (0x00A0) := by decide
/-- Vector M6. -/
theorem test_Fx29_whole_byte :
    seen (start 0 [(1, 0xFF)] []) quietInputs 0xF129 (fun t => t.i) = some (0x054B) := by decide
/-- Vector S6. -/
theorem test_Fx33_157 :
    seen (start 0x300 [(1, 157)] []) quietInputs 0xF133 (fun t => (t.readByte 0x300, t.readByte 0x301, t.readByte 0x302, t.i)) = some (1, 5, 7, 0x300) := by decide
/-- Vector M9. -/
theorem test_Fx33_wraps :
    seen (start 0xFFE [(1, 0x6D)] []) quietInputs 0xF133 (fun t => (t.readByte 0xFFE, t.readByte 0xFFF, t.readByte 0)) = some (1, 0, 9) := by decide
/-- Vector M11. -/
theorem test_Fx55_one_byte :
    seen (start 0x400 [(0, 0xAB), (1, 0xCD)] []) quietInputs 0xF055 (fun t => (t.readByte 0x400, t.readByte 0x401, t.i)) = some (0xAB, 0, 0x400) := by decide
/-- Vector M12. -/
theorem test_Fx55_wraps :
    seen (start 0xFFF [(0, 0xAB), (1, 0xCD)] []) quietInputs 0xF155 (fun t => (t.readByte 0xFFF, t.readByte 0)) = some (0xAB, 0xCD) := by decide
/-- Vector M13. -/
theorem test_Fx65_reads_the_font :
    seen (start 0x050 [(3, 0x99)] []) quietInputs 0xF265 (fun t => (t.readV 0, t.readV 1, t.readV 2, t.readV 3, t.i)) = some (0xF0, 0x90, 0x90, 0x99, 0x050) := by decide
/-- Vector M16. -/
theorem test_Fx65_loads_vf :
    seen (start 0x300 [] [(0x30F, 0x5A)]) quietInputs 0xFF65 (fun t => t.readV 15) = some (0x5A) := by decide

/-! ### UNDEF words, the range check and the events of the loop -/

/-- Vector T17. -/
theorem test_undef_5xyz_compares_nothing :
    seen (start 0 [(10, 9), (11, 9)] []) quietInputs 0x5AB1 (fun t => (t.pc, t.status)) = some (0x202, .running) := by decide
/-- Vector K15. -/
theorem test_undef_gets_its_timer_check :
    seen (State.reset.setDT 1) ticking 0x0000 (fun t => (t.pc, t.dt, t.st)) = some (0x202, 0, 0) := by decide
/-- Vector K16. -/
theorem test_undef_halts_when_strict :
    seen (strictReset) quietInputs 0x0000 (fun t => (t.pc, t.status)) = some (0x202, .halted) := by decide
/-- Vector T7. -/
theorem test_full_stack_halts_when_strict :
    seen (strictReset.setStack (List.replicate 24 0x202)) quietInputs 0x2300 (fun t => (t.pc, t.stack.length, t.status)) = some (0x202, 24, .halted) := by decide
/-- Vector K20. -/
theorem test_odd_pc_is_legal :
    seen (State.reset.setPc 0x201) quietInputs 0x6105 (fun t => (t.pc, t.readV 1)) = some (0x203, 5) := by decide
/-- Vector K18. -/
theorem test_range_check_halts :
    iterated ((State.reset.setPc 0xFFF).setDT 3) ticking (fun t => (t.pc, t.status, t.dt)) = some (0xFFF, .halted, 3) := by decide
/-- Vector E7. -/
theorem test_halt_is_presented :
    iterated (State.reset.setPc 0xFFF) quietInputs (fun t => (t.status, t.present)) = some (.halted, true) := by decide
/-- Vector E1. -/
theorem test_quit_comes_first :
    iterated (start 0 [] [(0x200, 0x61), (0x201, 5)]) quitting (fun t => (t.status, t.pc, t.readV 1, t.present)) = some (.halted, 0x200, 0, false) := by decide
/-- Vector E3. -/
theorem test_levels_do_not_end_the_wait :
    iterated (((start 0 [(5, 0x33)] []).setDT 9).setStatus (.waitingForKey 5)) { holding 3 with tickDue := true } (fun t => (t.status, t.readV 5, t.dt, t.present)) = some (.waitingForKey 5, 0x33, 9, false) := by decide
/-- Vector E4. -/
theorem test_first_edge_ends_the_wait :
    iterated ((start 0 [(5, 0x33)] []).setStatus (.waitingForKey 5)) (pressing [0xB, 2]) (fun t => (t.status, t.readV 5, t.pc, t.present)) = some (.running, 0xB, 0x200, false) := by decide
/-- Vector E6. -/
theorem test_edge_while_running_is_dropped :
    iterated (start 0 [] [(0x200, 0x61), (0x201, 5)]) (pressing [4]) (fun t => (t.status, t.pc, t.readV 1, t.present)) = some (.running, 0x202, 5, true) := by decide

/-! ### Placing an instruction -/

/-- `withFetchWord` from reset: the very next step runs the word. -/
theorem test_with_fetch_word_runs :
    (match step (State.reset.withFetchWord 16 0x6105) with
      | .next t => some (t.pc, t.readV 1)
      | .fault _ => none
      | .refused _ => none) = some (0x202, 5) := by decide

/-- An address out of range is set to 0x200, and a halted or waiting engine runs again. -/
theorem test_with_fetch_word_out_of_range :
    seen ((State.reset.setPc 0x1000).setStatus .halted) quitting 0x6105 (fun t => (t.pc, t.readV 1)) =
      some (0x202, 5) := by decide

/-! ### Witnesses: the hypotheses of the obligations are met together by concrete states

A clause of a statement has its own witness where the clause has a hypothesis of its own. -/

/-- About to run `6105` at 0x200, quiet inputs. -/
def ready : State := about State.reset quietInputs 0x6105

/-- About to run a word at 0x200, quiet inputs. -/
def due (word : Nat) : State := about State.reset quietInputs word

theorem stepDue_ready : StepDue ready := ⟨by decide, by decide⟩

theorem witness_StepRunsDecodedInstruction :
    StepDue ready ∧ ready.pc.toNat < 0xFFF ∧ decodeWord ready.fetched = .ok (.op6xkk 1 5) :=
  ⟨stepDue_ready, by decide, by decide⟩

/-- The last address at which a step fetches. -/
theorem witness_StepRunsDecodedInstruction_last_address :
    let s := about (State.reset.setPc 0xFFE) quietInputs 0x6105
    StepDue s ∧ s.pc.toNat < 0xFFF ∧ decodeWord s.fetched = .ok (.op6xkk 1 5) :=
  ⟨⟨by decide, by decide⟩, by decide, by decide⟩

theorem witness_UndefinedWordDoesNothingOrHalts :
    StepDue (due 0x5AB1) ∧ (due 0x5AB1).pc.toNat < 0xFFF ∧ decodeWord (due 0x5AB1).fetched = .error .undef5xyz :=
  ⟨⟨by decide, by decide⟩, by decide, by decide⟩

theorem witness_UndefinedWordDoesNothingOrHalts_strict :
    let s := about strictReset quietInputs 0x0000
    StepDue s ∧ s.cfg.strict = true ∧ s.pc.toNat < 0xFFF ∧ decodeWord s.fetched = .error .undef0nnn :=
  ⟨⟨by decide, by decide⟩, by decide, by decide, by decide⟩

theorem witness_OutOfRangePcHalts_in_range :
    let s := about (State.reset.setPc 0xFFE) quietInputs 0x6105
    StepDue s ∧ s.pc.toNat ≤ 0xFFE := ⟨⟨by decide, by decide⟩, by decide⟩

theorem witness_OutOfRangePcHalts_out_of_range :
    let s := { State.reset.setPc 0xFFF with schedule := [quietInputs] }
    StepDue s ∧ 0xFFF ≤ s.pc.toNat := ⟨⟨by decide, by decide⟩, by decide⟩

theorem ready_memory_wf : Memory.wf ready.cfg.font ready.mem = true := by decide
theorem ready_stack : ready.stack = [] := by decide
theorem ready_pc_bound : ready.pc.toNat ≤ 0x10FE := by decide
theorem ready_config_wf : ready.cfg.wf = true := by decide

theorem inv_ready : Machine.Inv ready where
  memory := ready_memory_wf
  stackBound := by rw [ready_stack]; exact Nat.zero_le _
  stackEntries := by rw [ready_stack]; intro a ha; cases ha
  pcBound := ready_pc_bound
  config := ready_config_wf

theorem witness_StepKeepsInvariant : ∃ t, Machine.Inv ready ∧ step ready = .next t := ⟨_, inv_ready, rfl⟩

theorem witness_BootMeetsInvariant :
    ∃ t, Config.wf defaultConfig = true ∧ boot defaultConfig [0x12, 0x00] = .next t := ⟨_, by decide, rfl⟩

theorem witness_BootMeetsInvariant_least_stack :
    ∃ t, Config.wf { defaultConfig with stackDepth := 1 } = true ∧
      boot { defaultConfig with stackDepth := 1 } [] = .next t := ⟨_, by decide, rfl⟩

theorem witness_QuitHaltsAndChangesNothingElse :
    let s := { State.reset with schedule := [quitting] }
    s.status ≠ .halted ∧ s.nextInputs.quit = true := ⟨by decide, by decide⟩

theorem witness_QuitHaltsAndChangesNothingElse_waiting :
    let s := { State.reset.setStatus (.waitingForKey 5) with schedule := [quitting] }
    s.status ≠ .halted ∧ s.nextInputs.quit = true := ⟨by decide, by decide⟩

theorem witness_KeyEdgeEndsTheWait_edge :
    let s := { State.reset.setStatus (.waitingForKey 15) with schedule := [pressing [0xB, 2]] }
    s.status = .waitingForKey 15 ∧ s.nextInputs.quit = false ∧ s.nextInputs.edges = 0xB :: [2] :=
  ⟨by decide, by decide, by decide⟩

theorem witness_KeyEdgeEndsTheWait_no_edge :
    let s := { State.reset.setStatus (.waitingForKey 0) with schedule := [quietInputs] }
    s.status = .waitingForKey 0 ∧ s.nextInputs.quit = false ∧ s.nextInputs.edges = [] :=
  ⟨by decide, by decide, by decide⟩

theorem witness_HaltedIsTerminal : (State.reset.setStatus .halted).status = .halted := rfl

/-- A step from which the engine goes on, and one for each cause of a halt. -/
theorem witness_HaltHasExactlyTheseCauses :
    ready.status ≠ .halted ∧ iterated ready quietInputs State.status = some .running := ⟨by decide, by decide⟩

theorem witness_HaltHasExactlyTheseCauses_quit :
    iterated ready quitting State.status = some .halted := by decide

theorem witness_HaltHasExactlyTheseCauses_range :
    iterated (State.reset.setPc 0xFFF) quietInputs State.status = some .halted := by decide

theorem witness_HaltHasExactlyTheseCauses_return :
    (due 0x00EE).fetched = 0x00EE ∧ (due 0x00EE).stack = [] ∧
      iterated (due 0x00EE) quietInputs State.status = some .halted := ⟨by decide, by decide, by decide⟩

theorem witness_HaltHasExactlyTheseCauses_undefined :
    let s := about strictReset quietInputs 0x0000
    s.cfg.strict = true ∧ wordDefined s.fetched = false ∧ iterated s quietInputs State.status = some .halted :=
  ⟨by decide, by decide, by decide⟩

theorem witness_HaltHasExactlyTheseCauses_call :
    let s := about (strictReset.setStack (List.replicate 24 0x202)) quietInputs 0x2300
    s.cfg.strict = true ∧ s.fetched.toNat / 0x1000 = 2 ∧ s.stack.length = s.cfg.stackDepth ∧
      iterated s quietInputs State.status = some .halted := ⟨by decide, by decide, by decide, by decide⟩

theorem witness_WaitHasExactlyTheseCauses_instruction :
    (due 0xFF0A).fetched.toNat = 0xF00A + 0x100 * (15 : RegIdx).val ∧
      iterated (due 0xFF0A) quietInputs State.status = some (.waitingForKey 15) := ⟨by decide, by decide⟩

theorem witness_WaitHasExactlyTheseCauses_goes_on :
    iterated (State.reset.setStatus (.waitingForKey 3)) quietInputs State.status = some (.waitingForKey 3) := by decide

theorem witness_TickCountsEachTimerDownOnce :
    let s := { (State.reset.setDT 0xFF).setST 1 with inputs := ticking }
    s.inputs.tickDue = true ∧ 0 < s.dt.toNat ∧ 0 < s.st.toNat ∧ s.timerCheck.dt = 0xFE ∧ s.timerCheck.st = 0 :=
  ⟨by decide, by decide, by decide, by decide, by decide⟩

theorem witness_TickCountsEachTimerDownOnce_zero :
    let s := { State.reset with inputs := ticking }
    s.inputs.tickDue = true ∧ s.dt.toNat = 0 ∧ s.st.toNat = 0 := ⟨by decide, by decide, by decide⟩

theorem witness_TickCountsEachTimerDownOnce_no_tick : (State.reset.setDT 3).inputs.tickDue = false := by decide

theorem witness_TimersCountOnlyInTheTimerCheck_no_fetch :
    ∃ t, step { State.reset.setPc 0xFFF with schedule := [ticking] } = .next t ∧
      ¬ (StepDue { State.reset.setPc 0xFFF with schedule := [ticking] } ∧
        (State.reset.setPc 0xFFF).pc.toNat < 0xFFF) := ⟨_, rfl, fun h => absurd h.2 (by decide)⟩

theorem witness_TimersCountOnlyInTheTimerCheck_fetch :
    ∃ t, step ready = .next t ∧ StepDue ready ∧ ready.pc.toNat < 0xFFF ∧
      (∀ x, decodeWord ready.fetched ≠ .ok (.opFx15 x)) ∧ (∀ x, decodeWord ready.fetched ≠ .ok (.opFx18 x)) :=
  ⟨_, rfl, stepDue_ready, by decide, by decide, by decide⟩

theorem witness_PresentsExactlyAfterAStep :
    iterated ready quietInputs State.present = some true ∧ iterated ready quitting State.present = some false :=
  ⟨by decide, by decide⟩

theorem witness_EdgesWhileRunningAreDropped :
    ready.status = .running ∧ ready.schedule = quietInputs :: [] := ⟨by decide, by decide⟩

theorem witness_OnlyThreeInstructionsReadKeysOrRandom : (Instr.opFx0A 3).readsInputs = false := rfl

theorem witness_RegistersChangeOnlyAsDestinationOrFlag :
    ∃ t, exec (.op8xy4 1 2) State.reset = .next t ∧ (Instr.op8xy4 1 2).writesFlag = true := ⟨_, rfl, rfl⟩

theorem witness_MemoryChangesOnlyByFourInstructions :
    ∃ t, exec (.op6xkk 1 2) State.reset = .next t ∧ (Instr.op6xkk 1 2).storesMemory = false := ⟨_, rfl, rfl⟩

theorem witness_MemoryChangesOnlyByFourInstructions_draw :
    ∃ t, exec (.opDxyn 0 1 0) State.reset = .next t := ⟨_, rfl⟩

theorem witness_MemoryIsReadOnlyByTwoInstructions : (Instr.opFx33 3).loadsMemory = false := rfl

theorem witness_ControlStateHasFewWriters :
    ∃ t, exec (.op1nnn 0xFFF) State.reset = .next t ∧ t.i = State.reset.i := ⟨_, rfl, rfl⟩

theorem witness_FetchIsBigEndianAndInsideMemory : (0 : Nat) < 0xFFF ∧ 0xFFE < 0xFFF := by decide

theorem witness_CanonicalMemoriesThatReadAlikeAreEqual :
    Memory.wf defaultFont [(0x050, 1), (0xFFF, 6)] = true ∧
    Memory.wf defaultFont (Memory.write defaultFont [(0xFFF, 6)] 0x050 1) = true ∧
    ∀ a, a < 0x1000 → Memory.read defaultFont [(0x050, 1), (0xFFF, 6)] a =
      Memory.read defaultFont (Memory.write defaultFont [(0xFFF, 6)] 0x050 1) a :=
  ⟨by decide, by decide, fun _ _ => rfl⟩

/-- The bytes at the ends of the font table and beside them (R21). -/
theorem witness_InitLeavesTheResetValues :
    State.reset.readByte 0x050 = 0xF0 ∧ State.reset.readByte 0x09F = 0x80 ∧ State.reset.readByte 0x04F = 0 ∧
      State.reset.readByte 0x0A0 = 0 := ⟨by decide, by decide, by decide, by decide⟩

theorem witness_LoadCopiesTheRom : (List.replicate 0xCA0 (0 : Byte)).length ≤ 0xCA0 := by
  rw [List.length_replicate]

theorem witness_LoadCopiesTheRom_empty : ([] : List Byte).length ≤ 0xCA0 := by decide

theorem witness_LongRomIsRefused : 0xCA0 < (List.replicate 0xCA1 (0 : Byte)).length := by
  rw [List.length_replicate]; decide

/-- Vector M15, and the same across the end of memory. -/
theorem witness_NextFetchSeesTheStore :
    let s := (State.reset.setI 0x202).setPc 0x202
    0 + 1 ≤ (1 : RegIdx).val ∧ s.pc.toNat < 0xFFF ∧ (s.i.toNat + 0) % 0x1000 = s.pc.toNat :=
  ⟨by decide, by decide, by decide⟩

theorem witness_NextFetchSeesTheStore_wraps :
    let s := (State.reset.setI 0xFFF).setPc 0x000
    1 + 1 ≤ (2 : RegIdx).val ∧ s.pc.toNat < 0xFFF ∧ (s.i.toNat + 1) % 0x1000 = s.pc.toNat :=
  ⟨by decide, by decide, by decide⟩

theorem witness_EncodeOfDecodeIsTheWord : decodeWord 0xD015 = .ok (.opDxyn 0 1 5) := by decide

theorem witness_OpcodeRowsAreDisjoint :
    ∃ p, p ∈ opcodeTable ∧ p.selects 0x00E0 = true := ⟨⟨"00E0", 0x00E0, 0xFFFF⟩, by decide, by decide⟩

theorem witness_CallPushesAdvancedPc_room :
    (State.reset.setStack (List.replicate 23 0x202)).stack.length ≠ State.reset.cfg.stackDepth := by decide

theorem witness_CallPushesAdvancedPc_full :
    (State.reset.setStack (List.replicate 24 0x202)).stack.length = State.reset.cfg.stackDepth := by decide

theorem witness_ReturnPopsPc_entry : (State.reset.setStack [0x30A, 0x204]).stack = 0x30A :: [0x204] := rfl

theorem witness_ReturnPopsPc_empty : State.reset.stack = [] := rfl

theorem witness_SkipsOnRegisters_undefined :
    (0x5AB1 : Word).toNat % 0x10 ≠ 0 ∧ (0x5AB1 : Word).toNat / 0x1000 = 5 ∧
    (0x9ABF : Word).toNat % 0x10 ≠ 0 ∧ (0x9ABF : Word).toNat / 0x1000 = 9 := by decide

theorem witness_flags_other_destination : (0 : RegIdx) ≠ vf ∧ (14 : RegIdx) ≠ vf := by decide

theorem witness_BlockLoadReadsV0ToVx : (15 : RegIdx) ≤ 15 ∧ (0 : RegIdx) < 1 := by decide

/-- Sprites of the least and the greatest height that lie outside the frame buffer, the second ending at 0xEFF. -/
theorem witness_DrawTogglesTheSpritesPixels :
    (∀ k, k < (0 : Fin 16).val → ¬ InFrameBuffer ((State.reset.setI 0xF00).baseAddr k)) ∧
    (∀ k, k < (15 : Fin 16).val → ¬ InFrameBuffer ((State.reset.setI 0xEF1).baseAddr k)) := by
  refine ⟨fun k hk => absurd hk (by simp), fun k hk => ?_⟩
  show ¬ (0xF00 ≤ (BitVec.ofNat 12 (0xEF1 + k)).toNat)
  rw [BitVec.toNat_ofNat]
  have : k < 15 := hk
  omega

theorem witness_DrawingTwiceRestoresAndCollides :
    (0 : RegIdx) ≠ vf ∧ (1 : RegIdx) ≠ vf ∧
    (∀ k, k < (5 : Fin 16).val → ¬ InFrameBuffer ((State.reset.setI 0x050).baseAddr k)) := by
  refine ⟨by decide, by decide, fun k hk => ?_⟩
  show ¬ (0xF00 ≤ (BitVec.ofNat 12 (0x050 + k)).toNat)
  rw [BitVec.toNat_ofNat]
  have : k < 5 := hk
  omega

/-- The last key number, and the first number that names no key. -/
theorem witness_SkipsOnKeyLevel :
    ((State.reset.writeV 1 15).readV 1).toNat = (15 : Key).val ∧ 16 ≤ ((State.reset.writeV 1 16).readV 1).toNat :=
  ⟨by decide, by decide⟩

theorem witness_DelayTimerIsReadBeforeTheCheck :
    let s := about (State.reset.setDT 0x10) ticking 0xF107
    StepDue s ∧ s.pc.toNat < 0xFFF ∧ decodeWord s.fetched = .ok (.opFx07 1) :=
  ⟨⟨by decide, by decide⟩, by decide, by decide⟩

theorem witness_TimerWritesCountInTheSameStep :
    let s := about (State.reset.writeV 1 0x10) ticking 0xF115
    StepDue s ∧ s.pc.toNat < 0xFFF ∧ decodeWord s.fetched = .ok (.opFx15 1) :=
  ⟨⟨by decide, by decide⟩, by decide, by decide⟩

theorem witness_TimerWritesCountInTheSameStep_sound :
    let s := about (State.reset.writeV 1 0x10) quietInputs 0xF118
    StepDue s ∧ s.pc.toNat < 0xFFF ∧ decodeWord s.fetched = .ok (.opFx18 1) :=
  ⟨⟨by decide, by decide⟩, by decide, by decide⟩

end Sys2Proof.Tests
end

section
/-! SUPPORT. The invariant of R23 is kept by every step, and holds after init and load. What the execute phase can do to
pc and to the stack is said once, as inversion lemmas; the bounds of the invariant follow from them. -/

namespace Sys2Proof.Machine

variable {s t : State}

/-! ### What the execute phase does to the stack and to pc -/

/-- The stack keeps its entries, or a call with room pushes pc, or a return pops (R15). -/
theorem exec_stack_cases {i : Instr} (h : exec i s = .next t) :
    t.stack = s.stack ∨ (s.stackFull = false ∧ t.stack = s.pc :: s.stack) ∨ ∃ a, s.stack = a :: t.stack := by
  cases i with
  | op00EE =>
    simp only [exec, exec00EE] at h
    split at h
    · exact .inl (of_next h ((onlyChanges_raise s _).1 .stack (by simp)))
    · next a rest hs => cases h; exact .inr (.inr ⟨a, hs⟩)
  | op2nnn nnn =>
    simp only [exec, exec2nnn] at h
    split at h
    · exact .inl (of_next h ((onlyChanges_raise s _).1 .stack (by simp)))
    · next hfull => cases h; exact .inr (.inl ⟨by simpa using hfull, rfl⟩)
  | _ => exact .inl ((exec_onlyChanges h).1 .stack (by simp [Instr.mayChange]))

/-- A skip leaves pc, or advances it once more (R6). -/
theorem skipIf_pc (s : State) (c : Bool) : (s.skipIf c).pc = s.pc ∨ (s.skipIf c).pc = s.pc + 2 := by
  cases c
  · exact .inl rfl
  · exact .inr rfl

/-- pc stays, skips, takes an address immediate (on V0 or alone), or takes a stack entry (R75 to R82). -/
theorem exec_pc_cases {i : Instr} (h : exec i s = .next t) :
    (t.pc = s.pc ∨ t.pc = s.pc + 2) ∨ (∃ nnn, t.pc = addrImm nnn) ∨
      (∃ nnn, t.pc = zextByte (s.readV 0) + addrImm nnn) ∨ t.pc ∈ s.stack := by
  cases i with
  | op3xkk _ _ | op4xkk _ _ | op5xy0 _ _ | op9xy0 _ _ | opEx9E _ | opExA1 _ =>
    exact .inl (of_next (P := fun t => t.pc = s.pc ∨ t.pc = s.pc + 2) h (skipIf_pc s _))
  | op1nnn nnn => cases h; exact .inr (.inl ⟨nnn, rfl⟩)
  | opBnnn nnn => cases h; exact .inr (.inr (.inl ⟨nnn, rfl⟩))
  | op00EE =>
    simp only [exec, exec00EE] at h
    split at h
    · exact .inl (.inl (of_next h ((onlyChanges_raise s _).1 .pc (by simp))))
    · next a rest hs => cases h; exact .inr (.inr (.inr (hs ▸ List.mem_cons_self ..)))
  | op2nnn nnn =>
    simp only [exec, exec2nnn] at h
    split at h
    · exact .inl (.inl (of_next h ((onlyChanges_raise s _).1 .pc (by simp))))
    · cases h; exact .inr (.inl ⟨nnn, rfl⟩)
  | _ => exact .inl (.inl ((exec_onlyChanges h).1 .pc (by simp [Instr.mayChange])))

/-! ### The invariant under the execute phase -/

theorem exec_stackBound {i : Instr} (hi : Inv s) (h : exec i s = .next t) : t.stack.length ≤ s.cfg.stackDepth := by
  have hb := hi.stackBound
  rcases exec_stack_cases h with hst | ⟨hfull, hst⟩ | ⟨a, hst⟩
  · rwa [hst]
  · have hne : s.stack.length ≠ s.cfg.stackDepth := by simpa [State.stackFull] using hfull
    rw [hst, List.length_cons]
    omega
  · rw [hst, List.length_cons] at hb
    omega

/-- A pushed entry is the advanced pc of a fetched word, which is at most 0x1000. -/
theorem exec_stackEntries {i : Instr} (hi : Inv s) (hpc : s.pc.toNat ≤ 0x1000) (h : exec i s = .next t) :
    ∀ a ∈ t.stack, a.toNat ≤ 0x1000 := by
  rcases exec_stack_cases h with hst | ⟨-, hst⟩ | ⟨b, hst⟩
  · rw [hst]
    exact hi.stackEntries
  · rw [hst]
    exact List.forall_mem_cons.2 ⟨hpc, hi.stackEntries⟩
  · exact (List.forall_mem_cons.1 (hst ▸ hi.stackEntries)).2

/-- The greatest target is `Bnnn`'s, 0xFF + 0xFFF (R82). -/
theorem exec_pcBound {i : Instr} (hi : Inv s) (hpc : s.pc.toNat ≤ 0x1000) (h : exec i s = .next t) :
    t.pc.toNat ≤ 0x10FE := by
  rcases exec_pc_cases h with (hp | hp) | ⟨nnn, hp⟩ | ⟨nnn, hp⟩ | hp
  · rw [hp]
    exact hi.pcBound
  · have htwo : (2 : Word).toNat = 2 := rfl
    rw [hp, BitVec.toNat_add, htwo]
    omega
  · rw [hp, addrImm_toNat]
    omega
  · rw [hp, BitVec.toNat_add, addrImm_toNat, zextByte_toNat]
    omega
  · have := hi.stackEntries _ hp
    omega

/-- The execute phase keeps the invariant where pc is the advanced pc of a fetched word (R23). -/
theorem Inv.exec {i : Instr} (hi : Inv s) (hpc : s.pc.toNat ≤ 0x1000) (h : exec i s = .next t) : Inv t := by
  have hcfg : t.cfg = s.cfg := (exec_onlyChanges h).2.cfg
  exact
    { memory := exec_memWf hi.memory h
      stackBound := hcfg ▸ exec_stackBound hi h
      stackEntries := exec_stackEntries hi hpc h
      pcBound := exec_pcBound hi hpc h
      config := hcfg ▸ hi.config }

/-! ### The invariant under the rest of a step -/

/-- The invariant speaks of memory, stack, pc and parameters alone. -/
theorem Inv.of_eq (hi : Inv s) (hmem : t.mem = s.mem) (hstack : t.stack = s.stack) (hpc : t.pc = s.pc)
    (hcfg : t.cfg = s.cfg) : Inv t where
  memory := by rw [hcfg, hmem]; exact hi.memory
  stackBound := by rw [hcfg, hstack]; exact hi.stackBound
  stackEntries := hstack ▸ hi.stackEntries
  pcBound := hpc ▸ hi.pcBound
  config := hcfg ▸ hi.config

theorem Inv.setStatus (hi : Inv s) (e : ExecState) : Inv (s.setStatus e) := hi.of_eq rfl rfl rfl rfl

theorem Inv.setPresent (hi : Inv s) (b : Bool) : Inv (s.setPresent b) := hi.of_eq rfl rfl rfl rfl

theorem Inv.sampleInputs (hi : Inv s) : Inv s.sampleInputs := hi.of_eq (by simp) (by simp) (by simp) (by simp)

theorem Inv.raise (hi : Inv s) (c : Condition) : Inv (s.raise c) := by
  rw [raise_eq]
  split
  · exact hi.setStatus _
  · exact hi

theorem Inv.timerCheck (hi : Inv s) : Inv s.timerCheck := by
  rw [timerCheck_eq]
  split
  · exact hi.of_eq rfl rfl rfl rfl
  · exact hi

theorem Inv.keyEvent (hi : Inv s) (r : RegIdx) : Inv (s.keyEvent r) := by
  unfold State.keyEvent
  split
  · exact hi
  · exact hi.of_eq rfl rfl rfl rfl

/-- The advance of a fetched word keeps the invariant: pc was below 0xFFF (R66, R68). -/
theorem Inv.atExecute (hi : Inv s) (hp : s.pc.toNat < pcLimit) : Inv s.atExecute where
  memory := by simpa using hi.memory
  stackBound := by simpa using hi.stackBound
  stackEntries := by simpa using hi.stackEntries
  pcBound := by
    rw [atExecute_pc s hp]
    simp only [pcLimit] at hp
    omega
  config := by simpa using hi.config

theorem Inv.executeWord {word : Word} (hi : Inv s) (hpc : s.pc.toNat ≤ 0x1000)
    (h : executeWord word s = .next t) : Inv t := by
  unfold Machine.executeWord at h
  split at h
  · exact hi.exec hpc h
  · exact of_next h (hi.raise _)

/-- A step of the engine that is due keeps the invariant: it halts out of range, or executes the fetched word. -/
theorem Inv.step_of_due (hi : Inv s) (hd : StepDue s) (h : step s = .next t) : Inv t := by
  by_cases hp : s.pc.toNat < pcLimit
  · rw [Machine.step_of_due s hd hp, thenNext_eq_next] at h
    obtain ⟨u, hu, rfl⟩ := h
    have hpc : s.atExecute.pc.toNat ≤ 0x1000 := by
      rw [atExecute_pc s hp]
      simp only [pcLimit] at hp
      omega
    exact ((hi.atExecute hp).executeWord hpc hu).timerCheck.setPresent true
  · rw [step_of_running s hd.running hd.noQuit, engineStep_outOfRange _ (by simpa using hp)] at h
    exact of_next h ((hi.sampleInputs.setStatus _).setPresent true)

/-- Every step keeps the invariant, by the five cases of an iteration (R23, R135). -/
theorem Inv.step (hi : Inv s) (h : step s = .next t) : Inv t := by
  by_cases hh : s.status = .halted
  · exact of_next (step_of_halted s hh ▸ h) (hi.setPresent false)
  by_cases hq : s.nextInputs.quit = true
  · exact of_next (step_of_quit s hh hq ▸ h) ((hi.sampleInputs.setStatus .halted).setPresent false)
  have hq' : s.nextInputs.quit = false := by simpa using hq
  match hs : s.status with
  | .halted => exact absurd hs hh
  | .waitingForKey r => exact of_next (step_of_waiting s hs hq' ▸ h) ((hi.sampleInputs.keyEvent r).setPresent false)
  | .running => exact hi.step_of_due ⟨hs, hq'⟩ h

/-- Settles O5: the cases of an iteration, and for the execute phase the inversion lemmas of stack and pc. -/
theorem stepKeepsInvariant : Obligations.StepKeepsInvariant :=
  fun _ _ hi h => hi.step h

/-! ### The invariant after init and load -/

theorem Inv.init {cfg : Config} (hc : cfg.wf = true) : Inv (State.init cfg) where
  memory := Memory.wf_nil
  stackBound := Nat.zero_le _
  stackEntries := by simp [State.init]
  pcBound := by simp [State.init, progBase]
  config := hc

theorem Inv.writeBytes (hi : Inv s) (a : Nat) (bytes : List Byte) : Inv (s.writeBytes a bytes) := by
  obtain ⟨hsame, hsur⟩ := onlyChanges_writeBytes s a bytes
  have hstack : (s.writeBytes a bytes).stack = s.stack := hsame .stack (by simp)
  have hpc : (s.writeBytes a bytes).pc = s.pc := hsame .pc (by simp)
  exact
    { memory := memWf_writeBytes s a bytes hi.memory
      stackBound := by rw [hstack, hsur.cfg]; exact hi.stackBound
      stackEntries := hstack ▸ hi.stackEntries
      pcBound := hpc ▸ hi.pcBound
      config := hsur.cfg ▸ hi.config }

theorem Inv.load {rom : List Byte} (hi : Inv s) (h : load rom s = .next t) : Inv t := by
  unfold Machine.load at h
  split at h
  · exact of_next h (hi.writeBytes _ _)
  · cases h

/-- Settles O6: init has the invariant, and the stores of load keep it. -/
theorem bootMeetsInvariant : Obligations.BootMeetsInvariant :=
  ⟨Inv.init rfl, fun _ _ _ hc h => (Inv.init hc).load h⟩

end Sys2Proof.Machine
end

section
/-! SUPPORT. The writers of each register and of the control state (R12, R13, R15 to R17). -/

namespace Sys2Proof

open Machine

/-! ### Which instructions may change an item of the control state -/

theorem Instr.i_mem_mayChange (i : Instr) : Item.i ∈ i.mayChange ↔
    (∃ nnn, i = .opAnnn nnn) ∨ (∃ x, i = .opFx1E x) ∨ (∃ x, i = .opFx29 x) := by
  cases i <;> simp [Instr.mayChange]

theorem Instr.stack_mem_mayChange (i : Instr) : Item.stack ∈ i.mayChange ↔ (∃ nnn, i = .op2nnn nnn) ∨ i = .op00EE := by
  cases i <;> simp [Instr.mayChange]

theorem Instr.dt_mem_mayChange (i : Instr) : Item.dt ∈ i.mayChange ↔ ∃ x, i = .opFx15 x := by
  cases i <;> simp [Instr.mayChange]

theorem Instr.st_mem_mayChange (i : Instr) : Item.st ∈ i.mayChange ↔ ∃ x, i = .opFx18 x := by
  cases i <;> simp [Instr.mayChange]

theorem Instr.status_mem_mayChange (i : Instr) : Item.status ∈ i.mayChange ↔
    (∃ x, i = .opFx0A x) ∨ (∃ nnn, i = .op2nnn nnn) ∨ i = .op00EE := by
  cases i <;> simp [Instr.mayChange]

/-- Settles O20: each item from the frame of every instruction, since no other instruction may change it. -/
theorem controlStateHasFewWriters : Obligations.ControlStateHasFewWriters := by
  intro i s t h
  obtain ⟨hsame, hsur⟩ := exec_onlyChanges h
  refine ⟨fun hA h1E h29 => hsame .i ?_, fun h2 hEE => hsame .stack ?_, fun h15 => hsame .dt ?_,
    fun h18 => hsame .st ?_, fun h0A h2 hEE => hsame .status ?_, hsur⟩
  · simp [Instr.i_mem_mayChange, hA, h1E, h29]
  · simp [Instr.stack_mem_mayChange, h2, hEE]
  · simp [Instr.dt_mem_mayChange, h15]
  · simp [Instr.st_mem_mayChange, h18]
  · simp [Instr.status_mem_mayChange, h0A, h2, hEE]

/-! ### Registers -/

namespace Machine

variable {s t : State}

/-- A flag is 0 or 1 (R12). -/
theorem flagByte_cases (b : Bool) : flagByte b = 0 ∨ flagByte b = 1 := by
  cases b
  · exact .inl rfl
  · exact .inr rfl

theorem readV_vf_writeV_flagByte (s : State) (b : Bool) :
    (s.writeV vf (flagByte b)).readV vf = 0 ∨ (s.writeV vf (flagByte b)).readV vf = 1 := by
  rw [State.readV_writeV_same]
  exact flagByte_cases b

theorem keepsRegs_loadRegs (s : State) (base : Nat) (l : List RegIdx) : KeepsRegsExcept l s (s.loadRegs base l) := by
  intro r hr
  rw [readV_loadRegs, if_neg hr]

/-- Drawing changes VF alone among the registers (R111). -/
theorem keepsRegs_execDxyn {x y : RegIdx} {n : Fin 16} (h : execDxyn x y n s = .next t) : KeepsRegsExcept [vf] s t :=
  of_next h fun r hr => (keepsRegs_writeV _ vf _ r hr).trans ((onlyChanges_drawSprite s _ _ _ _).1 .v (by simp) r)

/-- Every register outside the destination, and VF of the flag instructions, is unchanged (R12). -/
theorem exec_keepsRegs {i : Instr} (h : exec i s = .next t) :
    KeepsRegsExcept (i.dest ++ if i.writesFlag then [vf] else []) s t := by
  cases i with
  | op6xkk _ _ | op7xkk _ _ | opCxkk _ _ | op8xy0 _ _ | op8xy1 _ _ | op8xy2 _ _ | op8xy3 _ _ | opFx07 _ =>
    exact of_next h (keepsRegs_writeV s _ _)
  | op8xy4 _ _ | op8xy5 _ _ | op8xy6 _ _ | op8xy7 _ _ | op8xyE _ _ =>
    exact of_next h (keepsRegs_writeResultFlag s _ _ _)
  | opDxyn _ _ _ => exact keepsRegs_execDxyn h
  | opFx65 x => exact of_next h (by simpa [Instr.dest, Instr.writesFlag] using keepsRegs_loadRegs s _ (regBlock x))
  | _ => exact fun r _ => (exec_onlyChanges h).1 .v (by simp [Instr.mayChange]) r

/-- A flag instruction leaves 0 or 1 in VF (R12). -/
theorem exec_flag_cases {i : Instr} (hf : i.writesFlag = true) (h : exec i s = .next t) :
    t.readV vf = 0 ∨ t.readV vf = 1 := by
  cases i with
  | op8xy4 _ _ | op8xy5 _ _ | op8xy6 _ _ | op8xy7 _ _ | op8xyE _ _ | opDxyn _ _ _ =>
    exact of_next (P := fun t => t.readV vf = 0 ∨ t.readV vf = 1) h (readV_vf_writeV_flagByte _ _)
  | _ => cases hf

end Machine

/-- Settles O17: the frame of the registers, and the values of the flag. -/
theorem registersChangeOnlyAsDestinationOrFlag : Obligations.RegistersChangeOnlyAsDestinationOrFlag :=
  fun _ _ _ h => ⟨exec_keepsRegs h, fun hf => exec_flag_cases hf h⟩

end Sys2Proof
end

section
/-! SUPPORT. The canonical form of memory determines the data (log 22), and memory after init (R21). -/

namespace Sys2Proof.Machine

variable {font : Vector Byte 80} {m n : Memory}

/-- Where addresses rise strictly, a lookup finds exactly the cells of the list. -/
theorem Memory.mem_iff_lookup (hp : m.Pairwise (fun c d => c.1 < d.1)) (a : Nat) (b : Byte) :
    (a, b) ∈ m ↔ Memory.lookup m a = some b := by
  induction m with
  | nil => simp [Memory.lookup]
  | cons c rest ih =>
    obtain ⟨k, d⟩ := c
    obtain ⟨hfirst, hrest⟩ := List.pairwise_cons.1 hp
    by_cases hk : k = a
    · have hnot : (a, b) ∉ rest := fun hmem => by simpa [hk] using hfirst _ hmem
      simp [Memory.lookup, hk, hnot, eq_comm]
    · simp [Memory.lookup, hk, Ne.symm hk, ih hrest]

/-- The cells of a canonical memory are exactly the bytes of the 4096 that read as other than the reset contents. -/
theorem Memory.mem_iff_read (h : Memory.wf font m = true) (a : Nat) (b : Byte) :
    (a, b) ∈ m ↔ a < memSize ∧ Memory.read font m a = b ∧ b ≠ resetByte font a := by
  obtain ⟨hp, hcells⟩ := (Memory.wf_iff m).1 h
  constructor
  · intro hmem
    obtain ⟨ha, hb⟩ := hcells _ hmem
    exact ⟨ha, by simp [Memory.read, (Memory.mem_iff_lookup hp a b).1 hmem], hb⟩
  · rintro ⟨-, hread, hb⟩
    rw [Memory.mem_iff_lookup hp]
    unfold Memory.read at hread
    cases hl : Memory.lookup m a with
    | none => exact absurd (by simpa [hl] using hread.symm) hb
    | some c => simpa [hl] using hread

/-- Lists of cells with strictly rising addresses and the same cells are equal. -/
theorem Memory.eq_of_mem_iff (hm : m.Pairwise (fun c d => c.1 < d.1)) (hn : n.Pairwise (fun c d => c.1 < d.1))
    (h : ∀ c, c ∈ m ↔ c ∈ n) : m = n := by
  have hne : ∀ {c d : Host.Cell}, c.1 < d.1 → c ≠ d := fun hlt e => absurd (e ▸ hlt) (Nat.lt_irrefl _)
  have hperm : m.Perm n := (List.perm_ext_iff_of_nodup (hm.imp hne) (hn.imp hne)).2 h
  exact hperm.eq_of_pairwise (fun _ _ _ _ hlt hgt => absurd hgt (Nat.lt_asymm hlt)) hm hn

/-- Settles O22: reading alike, the two memories have the same cells, and their order is fixed. -/
theorem canonicalMemoriesThatReadAlikeAreEqual : Obligations.CanonicalMemoriesThatReadAlikeAreEqual := by
  intro font m n hm hn hread
  refine Memory.eq_of_mem_iff ((Memory.wf_iff m).1 hm).1 ((Memory.wf_iff n).1 hn).1 fun ⟨a, b⟩ => ?_
  rw [Memory.mem_iff_read hm, Memory.mem_iff_read hn]
  exact and_congr_right fun ha => by rw [hread a ha]

/-! ### Memory after init -/

/-- After init every address reads as the reset contents (R21). -/
theorem readByte_init (cfg : Config) (a : Addr) : (State.init cfg).readByte a = resetByte cfg.font a.toNat := rfl

theorem readV_init (cfg : Config) (r : RegIdx) : (State.init cfg).readV r = 0 := by
  simp [State.readV, State.init]

/-- Settles O23: memory reads as the reset contents, and every other value stands in `State.init`. -/
theorem initLeavesTheResetValues : Obligations.InitLeavesTheResetValues := by
  intro cfg
  refine ⟨fun g hg => ?_, fun a ha => ?_, readV_init cfg, rfl, rfl, rfl, rfl, rfl, rfl, rfl, rfl, rfl, rfl⟩
  · have haddr : (BitVec.ofNat 12 (0x050 + g)).toNat = fontBase + g := by
      simp only [BitVec.toNat_ofNat, fontBase]
      omega
    rw [readByte_init, haddr, resetByte_font hg]
  · rw [readByte_init]
    exact resetByte_elsewhere ha

end Sys2Proof.Machine
end

section
/-! SUPPORT. Who writes memory and who depends on it (R46), the two-byte read (R38), and that the next fetch sees a
store (R44). -/

namespace Sys2Proof

open Machine

/-- Memory stands in the frame of an instruction exactly when it is one of the four that write memory (R46). -/
theorem Instr.mem_mem_mayChange (i : Instr) : Item.mem ∈ i.mayChange ↔ i.storesMemory = true := by
  cases i <;> simp [Instr.mayChange, Instr.storesMemory]

/-- A store that is no load changes memory alone, so that only `Dxyn` also changes something else (R46). -/
theorem Instr.mayChange_of_stores {i : Instr} (hs : i.storesMemory = true) (hl : i.loadsMemory = false) :
    i.mayChange = [.mem] := by
  cases i with
  | op00E0 | opFx33 _ | opFx55 _ => rfl
  | opDxyn _ _ _ => cases hl
  | _ => cases hs

namespace Machine

variable {s t : State}

/-! ### The writers of memory -/

/-- `00E0` writes only the frame buffer (R110). -/
theorem keepsBytes_exec00E0 (h : exec00E0 s = .next t) : KeepsBytesExcept InFrameBuffer s t := by
  refine of_next h fun a ha => readByte_zeroBytes_other s fbBase fbSize a fun k hk he => ha ?_
  rw [he, InFrameBuffer, ea_toNat]
  simp only [fbBase, fbSize] at *
  omega

/-- `Dxyn` writes only the frame buffer (R111). -/
theorem keepsBytes_execDxyn {x y : RegIdx} {n : Fin 16} (h : execDxyn x y n s = .next t) :
    KeepsBytesExcept InFrameBuffer s t :=
  of_next h fun a ha =>
    (State.readByte_writeV _ vf _ a).trans (drawSprite_keepsBytes s (s.readV x).toNat (s.readV y).toNat s.i.toNat n a ha)

/-- Settles O18: memory from the frame of every instruction, and the frame buffer from what clearing and drawing write. -/
theorem memoryChangesOnlyByFourInstructions : Obligations.MemoryChangesOnlyByFourInstructions := by
  refine fun i s t h => ⟨fun hs => (exec_onlyChanges h).1 .mem ?_, ?_⟩
  · simp [Instr.mem_mem_mayChange, hs]
  · rintro (rfl | ⟨x, y, n, rfl⟩)
    · exact keepsBytes_exec00E0 h
    · exact keepsBytes_execDxyn h

/-! ### The readers of memory

The execute phase of an instruction that neither loads nor stores commutes with replacing the whole of memory. One that
stores and does not load changes nothing but memory, whatever memory it started from. -/

/-- The state with other contents of memory. -/
def State.withMem (s : State) (m : Memory) : State := { s with mem := m }

theorem same_withMem (s : State) (m : Memory) {it : Item} (h : it ≠ .mem) : it.Same s (s.withMem m) := by
  cases it with
  | mem => exact absurd rfl h
  | v => exact fun _ => rfl
  | _ => exact rfl

theorem Item.Same.symm {it : Item} {a b : State} (h : it.Same a b) : it.Same b a := by
  cases it with
  | mem | v => exact fun k => (h k).symm
  | _ => exact Eq.symm h

theorem skipIf_withMem (s : State) (m : Memory) (c : Bool) : (s.withMem m).skipIf c = (s.skipIf c).withMem m := by
  cases c <;> rfl

theorem raise_withMem (s : State) (m : Memory) (c : Condition) : (s.withMem m).raise c = (s.raise c).withMem m := by
  rw [raise_eq, raise_eq, apply_ite (State.withMem · m)]
  rfl

theorem exec00EE_withMem (s : State) (m : Memory) :
    exec00EE (s.withMem m) = thenNext (exec00EE s) (·.withMem m) := by
  have hstack : (s.withMem m).stack = s.stack := rfl
  simp only [exec00EE, hstack]
  split
  · rw [raise_withMem]
    rfl
  · rfl

theorem exec2nnn_withMem (nnn : Addr) (s : State) (m : Memory) :
    exec2nnn nnn (s.withMem m) = thenNext (exec2nnn nnn s) (·.withMem m) := by
  have hfull : (s.withMem m).stackFull = s.stackFull := rfl
  simp only [exec2nnn, hfull]
  split
  · rw [raise_withMem]
    rfl
  · rfl

/-- An instruction that neither loads nor stores does the same over any memory, and leaves that memory as it is (R46). -/
theorem exec_withMem {i : Instr} (hl : i.loadsMemory = false) (hs : i.storesMemory = false) (s : State) (m : Memory) :
    exec i (s.withMem m) = thenNext (exec i s) (·.withMem m) := by
  cases i with
  | op00E0 | opFx33 _ | opFx55 _ => cases hs
  | opDxyn _ _ _ | opFx65 _ => cases hl
  | op00EE => exact exec00EE_withMem s m
  | op2nnn nnn => exact exec2nnn_withMem nnn s m
  | op3xkk _ _ | op4xkk _ _ | op5xy0 _ _ | op9xy0 _ _ | opEx9E _ | opExA1 _ =>
    exact congrArg Host.Outcome.next (skipIf_withMem s m _)
  | _ => rfl

/-- An instruction that stores and does not load leaves every other item as it was (R46). -/
theorem exec_same_of_stores {i : Instr} (hs : i.storesMemory = true) (hl : i.loadsMemory = false)
    (h : exec i s = .next t) {it : Item} (hit : it ≠ .mem) : it.Same s t :=
  (exec_onlyChanges h).1 it (by simpa [Instr.mayChange_of_stores hs hl] using hit)

/-- Settles O19: a store keeps every item but memory on both sides; any other instruction commutes with the replacement of
memory. -/
theorem memoryIsReadOnlyByTwoInstructions : Obligations.MemoryIsReadOnlyByTwoInstructions := by
  intro i s m hl
  obtain ⟨t, ht⟩ := exec_next i s
  cases hs : i.storesMemory with
  | true =>
    obtain ⟨u, hu⟩ := exec_next i (s.withMem m)
    refine ⟨t, u, ht, hu, fun it hit => ?_⟩
    have hts : it.Same t s := (exec_same_of_stores hs hl ht hit).symm
    exact (hts.trans (same_withMem s m hit)).trans (exec_same_of_stores hs hl hu hit)
  | false =>
    have hu : exec i (s.withMem m) = .next (t.withMem m) := by rw [exec_withMem hl hs, ht, thenNext_next]
    exact ⟨t, t.withMem m, ht, hu, fun it hit => same_withMem t m hit⟩

/-! ### The two-byte read and the next fetch -/

/-- Settles O21: below the last address the read answers the two bytes, and the word splits into them. -/
theorem fetchIsBigEndianAndInsideMemory : Obligations.FetchIsBigEndianAndInsideMemory := by
  intro s addr h
  refine ⟨?_, ?_, _, s.readWord_ok h, ?_, ?_⟩
  · exact Nat.mod_eq_of_lt (by omega)
  · exact Nat.mod_eq_of_lt (by omega)
  · rw [wordOfBytes_toNat]
    omega
  · rw [wordOfBytes_toNat]
    omega

/-- After `Fx55` the address `I + q` of a register up to x holds the register (R104). -/
theorem readByte_of_execFx55 {x q : RegIdx} (hq : q ≤ x) (h : execFx55 x s = .next t) :
    t.readByte (ea (s.i.toNat + q.val)) = s.readV q :=
  of_next (P := fun t => t.readByte (ea (s.i.toNat + q.val)) = s.readV q) h
    (readByte_storeRegs s _ _ (regBlock_nodup x) q ((mem_regBlock x q).2 hq))

/-- Settles O26: the addresses at and after pc are those of the registers q and q + 1 of the block stored. -/
theorem nextFetchSeesTheStore : Obligations.NextFetchSeesTheStore := by
  intro x s q hq hpc haddr
  obtain ⟨t, ht⟩ := exec_next (.opFx55 x) s
  have htpc : t.pc = s.pc := (exec_onlyChanges ht).1 .pc (by simp [Instr.mayChange])
  have hhi : ea s.pc.toNat = ea (s.i.toNat + q) := (ea_eq_iff _ _).2 (by omega)
  have hlo : ea (s.pc.toNat + 1) = ea (s.i.toNat + (q + 1)) := (ea_eq_iff _ _).2 (by omega)
  have hfetched : t.fetched = wordOfBytes (t.readByte (ea s.pc.toNat)) (t.readByte (ea (s.pc.toNat + 1))) := by
    rw [← htpc]
    rfl
  refine ⟨t, ht, htpc, ?_⟩
  rw [hfetched, wordOfBytes_toNat, hhi, hlo]
  rw [readByte_of_execFx55 (q := ⟨q, by omega⟩) (Fin.le_def.2 (Nat.le_of_succ_le hq)) ht,
    readByte_of_execFx55 (q := ⟨q + 1, by omega⟩) (Fin.le_def.2 hq) ht]

end Machine

end Sys2Proof
end

section
/-! SUPPORT. Decoder, encoder and opcode map agree (R50 to R57). -/

namespace Sys2Proof

/-! ### Decoding what was encoded (R52, R54) -/

/-- By format: the fields read back are the operands and the opcodes that select the decoder's branch. -/
theorem decodeWord_encode (i : Instr) : decodeWord (encode i) = .ok i := by
  cases i with
  | op00E0 | op00EE => rfl
  | op1nnn _ | op2nnn _ | opAnnn _ | opBnnn _ =>
    simp [encode, decodeWord, fieldW_formatNNN, fieldNNN_formatNNN]
  | op3xkk _ _ | op4xkk _ _ | op6xkk _ _ | op7xkk _ _ | opCxkk _ _ =>
    simp [encode, decodeWord, fieldW_formatXKK, fieldX_formatXKK, fieldKK_formatXKK]
  | opEx9E _ | opExA1 _ =>
    simp [encode, decodeWord, decodeE, fieldW_formatXKK, fieldX_formatXKK, fieldKK_formatXKK]
  | opFx07 _ | opFx0A _ | opFx15 _ | opFx18 _ | opFx1E _ | opFx29 _ | opFx33 _ | opFx55 _ | opFx65 _ =>
    simp [encode, decodeWord, decodeF, fieldW_formatXKK, fieldX_formatXKK, fieldKK_formatXKK]
  | op5xy0 _ _ | op9xy0 _ _ =>
    simp [encode, decodeWord, fieldW_formatXYN, fieldX_formatXYN, fieldY_formatXYN, fieldZ_formatXYN]
  | op8xy0 _ _ | op8xy1 _ _ | op8xy2 _ _ | op8xy3 _ _ | op8xy4 _ _ | op8xy5 _ _ | op8xy6 _ _ | op8xy7 _ _ | op8xyE _ _ =>
    simp [encode, decodeWord, decode8, fieldW_formatXYN, fieldX_formatXYN, fieldY_formatXYN, fieldZ_formatXYN]
  | opDxyn _ _ _ =>
    simp [encode, decodeWord, fieldW_formatXYN, fieldX_formatXYN, fieldY_formatXYN, fieldN_formatXYN]

/-- Two bytes are always consumed, and the rest is handed on (R50, R57). -/
theorem decodeBytes_of_decodeWord {word : Word} {i : Instr} (h : decodeWord word = .ok i) (rest : List Byte) :
    decodeBytes (hiByte word :: loByte word :: rest) = .ok (i, rest) := by
  simp [decodeBytes, h]

/-- Settles O27: each format's fields read back; the two bytes of the word make the word again. -/
theorem decodeOfEncodeIsTheInstruction : Obligations.DecodeOfEncodeIsTheInstruction :=
  fun i rest => ⟨decodeWord_encode i, decodeBytes_of_decodeWord (decodeWord_encode i) rest⟩

/-! ### Encoding what was decoded (R51, R52)

A format of a word's own fields is the word: no bit lies outside the fields. -/

theorem formatNNN_of_fields {word : Word} {w : BitVec 4} {nnn : Addr} (hw : (fieldW word).toNat = w.toNat)
    (hnnn : (fieldNNN word).toNat = nnn.toNat) : formatNNN w nnn = word := by
  apply BitVec.eq_of_toNat_eq
  rw [formatNNN_toNat, ← hw, ← hnnn, fieldW_toNat, fieldNNN_toNat]
  omega

theorem formatXKK_of_fields {word : Word} {w : BitVec 4} {kk : Byte} (hw : (fieldW word).toNat = w.toNat)
    (hkk : (fieldKK word).toNat = kk.toNat) : formatXKK w (fieldX word) kk = word := by
  apply BitVec.eq_of_toNat_eq
  rw [formatXKK_toNat, ← hw, ← hkk, fieldW_toNat, fieldX_val, fieldKK_toNat]
  omega

theorem formatXYN_of_fields {word : Word} {w n : BitVec 4} (hw : (fieldW word).toNat = w.toNat)
    (hn : (fieldZ word).toNat = n.toNat) : formatXYN w (fieldX word) (fieldY word) n = word := by
  apply BitVec.eq_of_toNat_eq
  rw [formatXYN_toNat, ← hw, ← hn, fieldW_toNat, fieldX_val, fieldY_val, fieldZ_toNat]
  omega

/-! The decoder's branches, one lemma per group of minor opcodes. -/

section
variable {word : Word} {i : Instr}

theorem encode_of_decode0 (hw : (fieldW word).toNat = 0x0) (h : decode0 word = .ok i) : encode i = word := by
  unfold decode0 at h
  split at h <;> cases h
  · next hnnn => exact formatNNN_of_fields (w := 0x0) (nnn := 0x0E0) hw hnnn
  · next hnnn => exact formatNNN_of_fields (w := 0x0) (nnn := 0x0EE) hw hnnn

theorem encode_of_decode8 (hw : (fieldW word).toNat = 0x8) (h : decode8 word = .ok i) : encode i = word := by
  unfold decode8 at h
  split at h <;> cases h <;> next hz => exact formatXYN_of_fields hw hz

theorem encode_of_decodeE (hw : (fieldW word).toNat = 0xE) (h : decodeE word = .ok i) : encode i = word := by
  unfold decodeE at h
  split at h <;> cases h <;> next hkk => exact formatXKK_of_fields hw hkk

theorem encode_of_decodeF (hw : (fieldW word).toNat = 0xF) (h : decodeF word = .ok i) : encode i = word := by
  unfold decodeF at h
  split at h <;> cases h <;> next hkk => exact formatXKK_of_fields hw hkk

/-- By major opcode: the branch w of the decoder, case w + 1 of the split, names the format of the word. -/
theorem encode_of_decodeWord (h : decodeWord word = .ok i) : encode i = word := by
  unfold decodeWord at h
  split at h
  case h_1 hw => exact encode_of_decode0 hw h
  case h_9 hw => exact encode_of_decode8 hw h
  case h_15 hw => exact encode_of_decodeE hw h
  case h_16 =>
    have hw : (fieldW word).toNat = 0xF := by
      have hlt := (fieldW word).isLt
      grind
    exact encode_of_decodeF hw h
  case h_6 hw | h_10 hw =>
    split at h <;> cases h
    next hz => exact formatXYN_of_fields hw (congrArg BitVec.toNat hz)
  case h_14 hw => cases h; exact formatXYN_of_fields hw rfl
  case h_2 hw | h_3 hw | h_11 hw | h_12 hw => cases h; exact formatNNN_of_fields hw rfl
  case h_4 hw | h_5 hw | h_7 hw | h_8 hw | h_13 hw => cases h; exact formatXKK_of_fields hw rfl
end

/-- Settles O28: the word is the format of its own fields, in every branch of the decoder. -/
theorem encodeOfDecodeIsTheWord : Obligations.EncodeOfDecodeIsTheWord :=
  fun _ _ h => encode_of_decodeWord h

/-! ### The opcode map (R54 to R56) -/

theorem OpRow.selects_iff (r : OpRow) (word : Word) : r.selects word = true ↔ word &&& r.mask = r.pattern :=
  beq_iff_eq

/-- Rows that agree where both masks look are the same row: a finite check of the map. -/
theorem eq_of_patterns_agree : ∀ p ∈ opcodeTable, ∀ q ∈ opcodeTable,
    p.pattern &&& q.mask = q.pattern &&& p.mask → p = q := by
  decide

/-- Settles O30: a word that both rows select makes their patterns agree where both masks look. -/
theorem opcodeRowsAreDisjoint : Obligations.OpcodeRowsAreDisjoint := by
  intro word p q hp hq hpw hqw
  rw [OpRow.selects_iff] at hpw hqw
  refine eq_of_patterns_agree p hp q hq ?_
  rw [← hpw, ← hqw, BitVec.and_assoc, BitVec.and_assoc, BitVec.and_comm p.mask]

/-- The row of an instruction is a row of the map. -/
theorem rowOf_mem_opcodeTable (i : Instr) : rowOf i ∈ opcodeTable.map fun r => (r.pattern, r.mask) := by
  cases i <;> dsimp only [rowOf] <;> decide

open Laws.EncodingRow in
/-- The word of an instruction matches the row of the instruction: the laws of the constructors, put together. -/
theorem encode_mask_rowOf (i : Instr) : encode i &&& (rowOf i).2 = (rowOf i).1 :=
  Instr.rec (motive := Statement) op00E0 op00EE op1nnn op2nnn op3xkk op4xkk op5xy0 op6xkk op7xkk op8xy0 op8xy1 op8xy2
    op8xy3 op8xy4 op8xy5 op8xy6 op8xy7 op8xyE op9xy0 opAnnn opBnnn opCxkk opDxyn opEx9E opExA1 opFx07 opFx0A opFx15
    opFx18 opFx1E opFx29 opFx33 opFx55 opFx65 i

theorem wordDefined_iff (word : Word) : wordDefined word = true ↔ ∃ r ∈ opcodeTable, word &&& r.mask = r.pattern := by
  simp [wordDefined, OpRow.selects_iff]

theorem wordDefined_encode (i : Instr) : wordDefined (encode i) = true := by
  obtain ⟨r, hr, hrow⟩ := List.mem_map.1 (rowOf_mem_opcodeTable i)
  have h := encode_mask_rowOf i
  rw [← hrow] at h
  exact (wordDefined_iff _).2 ⟨r, hr, h⟩

/-! A row fixes the fields under its mask, and the decoder branches on those fields alone. -/

section
variable {word p : Word}

theorem fieldW_of_mask_F000 (h : word &&& 0xF000 = p) : (fieldW word).toNat = p.toNat / 0x1000 := by
  rw [← h, mask_F000_toNat, fieldW_toNat]
  omega

theorem fields_of_mask_F00F (h : word &&& 0xF00F = p) :
    (fieldW word).toNat = p.toNat / 0x1000 ∧ (fieldZ word).toNat = p.toNat % 0x10 := by
  rw [← h, mask_F00F_toNat, fieldW_toNat, fieldZ_toNat]
  omega

theorem fields_of_mask_F0FF (h : word &&& 0xF0FF = p) :
    (fieldW word).toNat = p.toNat / 0x1000 ∧ (fieldKK word).toNat = p.toNat % 0x100 := by
  rw [← h, mask_F0FF_toNat, fieldW_toNat, fieldKK_toNat]
  omega

theorem decodes_of_row_major {r : OpRow} (hr : r ∈ opRowsMajor) (h : word &&& r.mask = r.pattern) :
    ∃ i, decodeWord word = .ok i := by
  unfold opRowsMajor at hr
  fin_cases hr
  · exact ⟨.op00E0, congrArg decodeWord ((mask_FFFF word).symm.trans h)⟩
  · exact ⟨.op00EE, congrArg decodeWord ((mask_FFFF word).symm.trans h)⟩
  all_goals simp [decodeWord, fieldW_of_mask_F000 h]

theorem decodes_of_row_xy {r : OpRow} (hr : r ∈ opRowsXY) (h : word &&& r.mask = r.pattern) :
    ∃ i, decodeWord word = .ok i := by
  unfold opRowsXY at hr
  fin_cases hr <;> obtain ⟨hw, hz⟩ := fields_of_mask_F00F h <;>
    simp [decodeWord, decode8, ← BitVec.toNat_inj, hw, hz]

theorem decodes_of_row_x {r : OpRow} (hr : r ∈ opRowsX) (h : word &&& r.mask = r.pattern) :
    ∃ i, decodeWord word = .ok i := by
  unfold opRowsX at hr
  fin_cases hr <;> obtain ⟨hw, hkk⟩ := fields_of_mask_F0FF h <;> simp [decodeWord, decodeE, decodeF, hw, hkk]

end

/-- Settles O29: a decoded word is an instruction's, so the instruction's row selects it; a row fixes the fields that the
decoder branches on. -/
theorem decoderAcceptsExactlyTheMap : Obligations.DecoderAcceptsExactlyTheMap := by
  refine ⟨rfl, fun word => ⟨?_, fun h => ?_⟩⟩
  · rintro ⟨i, hi⟩
    exact encode_of_decodeWord hi ▸ wordDefined_encode i
  · obtain ⟨r, hr, hrow⟩ := (wordDefined_iff word).1 h
    simp only [opcodeTable, List.mem_append] at hr
    obtain (hr | hr) | hr := hr
    · exact decodes_of_row_major hr hrow
    · exact decodes_of_row_xy hr hrow
    · exact decodes_of_row_x hr hrow

/-- Settles O31: the words are closed, so the decoder runs on each. -/
theorem sampleWordsDecode : Obligations.SampleWordsDecode := by
  unfold Obligations.SampleWordsDecode
  decide

end Sys2Proof
end

section
/-! SUPPORT. The step of the engine (R65 to R72): what a fetched word does, what an iteration without a fetch keeps, and
when the timers count. -/

namespace Sys2Proof.Machine

/-! ### The execute phase of a fetched word -/

theorem executeWord_of_decoded {word : Word} {i : Instr} (h : decodeWord word = .ok i) (s : State) :
    executeWord word s = exec i s := by
  simp [executeWord, h]

theorem executeWord_of_undefined {word : Word} {e : DecodeReject} (h : decodeWord word = .error e) (s : State) :
    executeWord word s = .next (s.raise .unknownOpcode) := by
  simp [executeWord, h, execUndef]

/-- A word keeps every item but the execution state that its instruction, if it has one, may not change (R69, R70). -/
theorem executeWord_same {word : Word} {s u : State} {it : Item} (h : executeWord word s = .next u)
    (hit : ∀ i, decodeWord word = .ok i → it ∉ i.mayChange) (hstatus : it ≠ .status) : it.Same s u := by
  cases hd : decodeWord word with
  | ok i =>
    rw [executeWord_of_decoded hd] at h
    exact (exec_onlyChanges h).1 it (hit i hd)
  | error e =>
    rw [executeWord_of_undefined hd] at h
    exact of_next h ((onlyChanges_raise s _).1 it (by simpa using hstatus))

variable {s : State}

/-- Settles O1: a step that is due and in range executes its word, and the word decodes to i. -/
theorem stepRunsDecodedInstruction : Obligations.StepRunsDecodedInstruction := by
  intro s i hd hp hi
  refine ⟨?_, atExecute_pc s hp, atExecute_inputs s, atExecute_cfg s, fun it hit => same_atExecute s hit⟩
  rw [step_of_due s hd hp, executeWord_of_decoded hi]

/-! ### The range check -/

/-- Out of range, a step that is due halts the engine and presents (R66, R135). -/
theorem step_of_due_outOfRange (hd : StepDue s) (hp : pcLimit ≤ s.pc.toNat) :
    step s = .next (s.sampleInputs.halt.setPresent true) := by
  rw [step_of_running s hd.running hd.noQuit, engineStep_outOfRange _ (by simpa using hp)]
  rfl

theorem same_setPresent (s : State) (b : Bool) (it : Item) : it.Same s (s.setPresent b) := by
  cases it <;> simp [Item.Same]

/-- The frame of an iteration that samples its inputs, changes the items listed and answers `present`. -/
theorem same_of_sampled {items : List Item} {u : State} (h : OnlyChanges items s.sampleInputs u) (b : Bool) {it : Item}
    (hit : it ∉ items) : it.Same s (u.setPresent b) :=
  ((same_sampleInputs s it).trans (h.1 it hit)).trans (same_setPresent u b it)

/-- Settles O3: in range the fetched word is executed, out of range the engine halts. -/
theorem outOfRangePcHalts : Obligations.OutOfRangePcHalts := by
  refine fun s hd => ⟨fun hp => step_of_due s hd (Nat.lt_succ_of_le hp), fun hp => ?_⟩
  exact ⟨_, step_of_due_outOfRange hd hp, rfl, fun it hit =>
    same_of_sampled (onlyChanges_setStatus _ .halted) true (by simpa using hit)⟩

/-! ### An iteration without a fetch -/

theorem onlyChanges_keyEvent (s : State) (r : RegIdx) : OnlyChanges [.v, .status] s (s.keyEvent r) := by
  rw [keyEvent_eq]
  split
  · exact OnlyChanges.refl s _
  · exact ((onlyChanges_writeV s _ _).mono (by simp)).trans ((onlyChanges_setStatus _ _).mono (by simp))

/-- A wait, a quit, the range check and a halted engine answer a next state, in which at most the registers and the
execution state differ (R66, R134 to R139). -/
theorem step_of_noFetch (h : ¬ (StepDue s ∧ s.pc.toNat < pcLimit)) :
    ∃ t, step s = .next t ∧ t.cfg = s.cfg ∧ ∀ it ∉ [Item.v, Item.status], it.Same s t := by
  have sampled {u : State} (hu : OnlyChanges [.v, .status] s.sampleInputs u) (b : Bool) :
      (u.setPresent b).cfg = s.cfg ∧ ∀ it ∉ [Item.v, Item.status], it.Same s (u.setPresent b) :=
    ⟨hu.2.cfg.trans (sampleInputs_cfg s), fun _ hit => same_of_sampled hu b hit⟩
  have halted (b : Bool) := sampled ((onlyChanges_setStatus s.sampleInputs .halted).mono (by simp)) b
  by_cases hh : s.status = .halted
  · exact ⟨_, step_of_halted s hh, rfl, fun it _ => same_setPresent s false it⟩
  by_cases hq : s.nextInputs.quit = true
  · exact ⟨_, step_of_quit s hh hq, halted false⟩
  have hq' : s.nextInputs.quit = false := by simpa using hq
  match hs : s.status with
  | .halted => exact absurd hs hh
  | .waitingForKey r => exact ⟨_, step_of_waiting s hs hq', sampled (onlyChanges_keyEvent _ r) false⟩
  | .running =>
    have hd : StepDue s := ⟨hs, hq'⟩
    exact ⟨_, step_of_due_outOfRange hd (Nat.not_lt.1 fun hp => h ⟨hd, hp⟩), halted true⟩

/-- A step that fetches answers the end of the execute phase, timers checked and presented (R69, R71, R135). -/
theorem step_of_fetch (hd : StepDue s) (hp : s.pc.toNat < pcLimit) :
    ∃ u, executeWord s.fetched s.atExecute = .next u ∧ SameSurroundings s.atExecute u ∧
      step s = .next (u.timerCheck.setPresent true) := by
  obtain ⟨u, hu, hsur⟩ := executeWord_next s.atExecute s.fetched
  exact ⟨u, hu, hsur, by rw [step_of_due s hd hp, hu, thenNext_next]⟩

/-- Settles O4: an iteration fetches a word or does not, and keeps the parameters either way. -/
theorem stepAlwaysCompletesWithSameParameters : Obligations.StepAlwaysCompletesWithSameParameters := by
  intro s
  by_cases h : StepDue s ∧ s.pc.toNat < pcLimit
  · obtain ⟨u, -, hsur, hstep⟩ := step_of_fetch h.1 h.2
    exact ⟨_, hstep, ((onlyChanges_timerCheck u).2.cfg.trans hsur.cfg).trans (atExecute_cfg s)⟩
  · obtain ⟨t, hstep, hcfg, -⟩ := step_of_noFetch h
    exact ⟨t, hstep, hcfg⟩

/-! ### The timers -/

/-- Settles O13: without a fetch no timer changes; with one, only `Fx15` and `Fx18` touch a timer before the check. -/
theorem timersCountOnlyInTheTimerCheck : Obligations.TimersCountOnlyInTheTimerCheck := by
  refine fun s t h => ⟨fun hno => ?_, fun hd hp => ?_⟩
  · obtain ⟨u, hstep, -, hsame⟩ := step_of_noFetch hno
    exact of_next (P := fun t => t.dt = s.dt ∧ t.st = s.st) (hstep ▸ h)
      ⟨hsame .dt (by simp), hsame .st (by simp)⟩
  · obtain ⟨u, hu, hsur, hstep⟩ := step_of_fetch hd hp
    obtain rfl := Host.Outcome.next.inj (hstep ▸ h)
    have hinputs : u.inputs = s.nextInputs := hsur.inputs.trans (atExecute_inputs s)
    refine ⟨fun h15 => ?_, fun h18 => ?_⟩
    · have hdt : u.dt = s.atExecute.dt := executeWord_same hu (it := .dt) (fun i hi hmem => by
        obtain ⟨x, rfl⟩ := i.dt_mem_mayChange.1 hmem
        exact h15 x hi) (by simp)
      rw [dt_timerCheck_present, hinputs, hdt, atExecute_dt]
    · have hst : u.st = s.atExecute.st := executeWord_same hu (it := .st) (fun i hi hmem => by
        obtain ⟨x, rfl⟩ := i.st_mem_mayChange.1 hmem
        exact h18 x hi) (by simp)
      rw [st_timerCheck_present, hinputs, hst, atExecute_st]

/-! ### An undefined word -/

theorem status_raise_unknownOpcode (h : s.status = .running) :
    (s.raise .unknownOpcode).status = if s.cfg.strict then .halted else .running := by
  rw [raise_eq]
  cases hs : s.cfg.strict <;> simp [h]

/-- Settles O2: UnknownOpcode changes the execution state alone, and the end of the step the timers alone, which count as
after every fetched word other than `Fx15` and `Fx18`. -/
theorem undefinedWordDoesNothingOrHalts : Obligations.UndefinedWordDoesNothingOrHalts := by
  intro s e hd hp he
  let u := s.atExecute.raise .unknownOpcode
  have hraise : OnlyChanges [.status] s.atExecute u := onlyChanges_raise s.atExecute _
  have hend {it : Item} (hdt : it ≠ .dt) (hst : it ≠ .st) : it.Same u (u.timerCheck.setPresent true) :=
    same_timerCheck_present u true hdt hst
  have hstep : step s = .next (u.timerCheck.setPresent true) := by
    rw [step_of_due s hd hp, executeWord_of_undefined he, thenNext_next]
  obtain ⟨hdt, hst⟩ := (timersCountOnlyInTheTimerCheck s _ hstep).2 hd hp
  refine ⟨_, hstep, ?_, ?_, hdt (by simp [he]), hst (by simp [he]), fun it hit => ?_⟩
  · have hpc : (u.timerCheck.setPresent true).pc = s.atExecute.pc :=
      (hraise.1 .pc (by simp)).trans (hend (it := .pc) (by simp) (by simp))
    rw [hpc, atExecute_pc s hp]
  · have hstatus : (u.timerCheck.setPresent true).status = u.status := hend (it := .status) (by simp) (by simp)
    rw [hstatus, status_raise_unknownOpcode (by simpa using hd.running), atExecute_cfg]
  · have hne : it ≠ .pc ∧ it ≠ .status ∧ it ≠ .dt ∧ it ≠ .st := by revert it; decide
    obtain ⟨hpc, hstatus, hdt, hst⟩ := hne
    exact ((same_atExecute s hpc).trans (hraise.1 it (by simpa using hstatus))).trans (hend hdt hst)

end Sys2Proof.Machine
end

section
/-! SUPPORT. The execute phase of an instruction that reads neither `keys` nor `rnd` commutes with replacing the inputs of
the iteration (R65). -/

namespace Sys2Proof.Machine

/-- The state with other inputs of the iteration under way. -/
def State.withInputs (s : State) (inp : Inputs) : State := { s with inputs := inp }

variable (s : State) (inp : Inputs)

theorem same_withInputs (it : Item) : it.Same s (s.withInputs inp) := by
  cases it with
  | mem | v => exact fun _ => rfl
  | _ => exact rfl

/-! ### The shared operations -/

theorem skipIf_withInputs (c : Bool) : (s.withInputs inp).skipIf c = (s.skipIf c).withInputs inp := by
  cases c <;> rfl

theorem raise_withInputs (c : Condition) : (s.withInputs inp).raise c = (s.raise c).withInputs inp := by
  rw [raise_eq, raise_eq, apply_ite (State.withInputs · inp)]
  rfl

theorem writeBytes_withInputs (a : Nat) (bytes : List Byte) :
    (s.withInputs inp).writeBytes a bytes = (s.writeBytes a bytes).withInputs inp := by
  induction bytes generalizing s a with
  | nil => rfl
  | cons b rest ih => exact ih (s.writeByte (ea a) b) (a + 1)

theorem storeRegs_withInputs (base : Nat) (l : List RegIdx) :
    (s.withInputs inp).storeRegs base l = (s.storeRegs base l).withInputs inp := by
  induction l generalizing s with
  | nil => rfl
  | cons r rest ih => exact ih (s.writeByte _ (s.readV r))

theorem loadRegs_withInputs (base : Nat) (l : List RegIdx) :
    (s.withInputs inp).loadRegs base l = (s.loadRegs base l).withInputs inp := by
  induction l generalizing s with
  | nil => rfl
  | cons r rest ih => exact ih (s.writeV r _)

/-! ### Drawing -/

/-- A drawing under way, over the state with other inputs. -/
def drawingWithInputs (inp : Inputs) (acc : State × Bool) : State × Bool := (acc.1.withInputs inp, acc.2)

theorem drawPixel_withInputs (vx row : Nat) (sprite : Byte) (acc : State × Bool) (b : Nat) :
    drawPixel vx row sprite (drawingWithInputs inp acc) b = drawingWithInputs inp (drawPixel vx row sprite acc b) := by
  unfold drawPixel
  split <;> rfl

theorem drawRow_withInputs (vx row : Nat) (sprite : Byte) (acc : State × Bool) :
    drawRow vx row sprite (drawingWithInputs inp acc) = drawingWithInputs inp (drawRow vx row sprite acc) := by
  unfold drawRow
  split
  · exact List.foldl_hom (drawingWithInputs inp) (drawPixel_withInputs inp vx row sprite)
  · rfl

theorem drawSprite_withInputs (vx vy base n : Nat) :
    drawSprite vx vy base (s.withInputs inp) n = drawingWithInputs inp (drawSprite vx vy base s n) := by
  induction n with
  | zero => rfl
  | succ n ih =>
    rw [drawSprite, ih]
    exact drawRow_withInputs inp vx (vy + n) _ _

/-! ### The execute phase -/

theorem exec00EE_withInputs : exec00EE (s.withInputs inp) = thenNext (exec00EE s) (·.withInputs inp) := by
  have hstack : (s.withInputs inp).stack = s.stack := rfl
  simp only [exec00EE, hstack]
  split <;> rfl

theorem exec2nnn_withInputs (nnn : Addr) :
    exec2nnn nnn (s.withInputs inp) = thenNext (exec2nnn nnn s) (·.withInputs inp) := by
  have hfull : (s.withInputs inp).stackFull = s.stackFull := rfl
  simp only [exec2nnn, hfull]
  split
  · exact congrArg Host.Outcome.next (raise_withInputs s inp _)
  · rfl

theorem execDxyn_withInputs (x y : RegIdx) (n : Fin 16) :
    execDxyn x y n (s.withInputs inp) = thenNext (execDxyn x y n s) (·.withInputs inp) := by
  have hdraw := drawSprite_withInputs s inp (s.readV x).toNat (s.readV y).toNat s.i.toNat n.val
  exact congrArg (fun acc : State × Bool => Host.Outcome.next (acc.1.writeV vf (collisionFlag acc.2))) hdraw

/-- An instruction other than `Ex9E`, `ExA1`, `Cxkk` does the same under any inputs, and leaves them as they are (R65). -/
theorem exec_withInputs {i : Instr} (h : i.readsInputs = false) :
    exec i (s.withInputs inp) = thenNext (exec i s) (·.withInputs inp) := by
  cases i with
  | opCxkk _ _ | opEx9E _ | opExA1 _ => cases h
  | op00E0 | opFx33 _ => exact congrArg Host.Outcome.next (writeBytes_withInputs s inp _ _)
  | op00EE => exact exec00EE_withInputs s inp
  | op2nnn nnn => exact exec2nnn_withInputs s inp nnn
  | op3xkk _ _ | op4xkk _ _ | op5xy0 _ _ | op9xy0 _ _ => exact congrArg Host.Outcome.next (skipIf_withInputs s inp _)
  | opDxyn x y n => exact execDxyn_withInputs s inp x y n
  | opFx55 _ => exact congrArg Host.Outcome.next (storeRegs_withInputs s inp _ _)
  | opFx65 _ => exact congrArg Host.Outcome.next (loadRegs_withInputs s inp _ _)
  | _ => rfl

/-- Settles O16: the execute phase commutes with replacing the inputs, which are no item of R10. -/
theorem onlyThreeInstructionsReadKeysOrRandom : Obligations.OnlyThreeInstructionsReadKeysOrRandom := by
  intro i s keys rnd h
  obtain ⟨t, ht⟩ := exec_next i s
  let inp : Inputs := { s.inputs with keys := keys, rnd := rnd }
  have hu : exec i (s.withInputs inp) = .next (t.withInputs inp) := by rw [exec_withInputs s inp h, ht, thenNext_next]
  exact ⟨t, t.withInputs inp, ht, hu, same_withInputs t inp⟩

end Sys2Proof.Machine
end

section
/-! SUPPORT. Control transfer (R75 to R82): what a skip, a jump, a call and a return make of pc, of the stack and of the
execution state, and the undefined words beside the register skips (R56). -/

namespace Sys2Proof

/-! ### Undefined words -/

theorem fieldZ_ne_zero {word : Word} (h : word.toNat % 0x10 ≠ 0) : fieldZ word ≠ 0 := by
  rw [← fieldZ_toNat] at h
  exact fun hz => h (congrArg BitVec.toNat hz)

theorem decodeWord_undef5xyz {word : Word} (hz : word.toNat % 0x10 ≠ 0) (hw : word.toNat / 0x1000 = 5) :
    decodeWord word = .error .undef5xyz := by
  simpa [decodeWord, fieldW_toNat, hw] using fieldZ_ne_zero hz

theorem decodeWord_undef9xyz {word : Word} (hz : word.toNat % 0x10 ≠ 0) (hw : word.toNat / 0x1000 = 9) :
    decodeWord word = .error .undef9xyz := by
  simpa [decodeWord, fieldW_toNat, hw] using fieldZ_ne_zero hz

namespace Machine

variable (s : State)

/-! ### Skips -/

/-- A skip on equal bytes, with the comparison of R78 and R80 over the numbers. -/
theorem pc_skipIf_beq (a b : Byte) :
    (s.skipIf (a == b)).pc = if a.toNat = b.toNat then s.pc + 2 else s.pc := by
  simp [skipIf_eq, BitVec.toNat_inj]

/-- A skip on different bytes, with the comparison of R79 and R81 over the numbers. -/
theorem pc_skipIf_bne (a b : Byte) :
    (s.skipIf (a != b)).pc = if a.toNat = b.toNat then s.pc else s.pc + 2 := by
  simp [skipIf_eq, BitVec.toNat_inj]

/-- Settles O36: the register skips compare Vx with Vy; with z not 0 the decoder's branches 5 and 9 reject. -/
theorem skipsOnRegisters : Obligations.SkipsOnRegisters :=
  ⟨fun x y s => ⟨Laws.EncodingRow.op5xy0 x y, Laws.EncodingRow.op9xy0 x y,
    ⟨_, rfl, pc_skipIf_beq s _ _, onlyChanges_skipIf s _⟩, ⟨_, rfl, pc_skipIf_bne s _ _, onlyChanges_skipIf s _⟩⟩,
  fun _ hz => ⟨decodeWord_undef5xyz hz, decodeWord_undef9xyz hz⟩⟩

/-- Settles O35: the immediate skips compare Vx with kk. -/
theorem skipsOnImmediate : Obligations.SkipsOnImmediate :=
  fun x kk s => ⟨Laws.EncodingRow.op3xkk x kk, Laws.EncodingRow.op4xkk x kk,
    ⟨_, rfl, pc_skipIf_beq s _ _, onlyChanges_skipIf s _⟩, ⟨_, rfl, pc_skipIf_bne s _ _, onlyChanges_skipIf s _⟩⟩

/-! ### Jumps -/

/-- Settles O32: pc receives the zero-extended immediate. -/
theorem jumpSetsPc : Obligations.JumpSetsPc :=
  fun nnn s => ⟨Laws.EncodingRow.op1nnn nnn, _, rfl, addrImm_toNat nnn, onlyChanges_setPc s _⟩

/-- A byte on a 12-bit address is at most 0x10FE, which 16 bits hold (R82). -/
theorem zextByte_add_addrImm_toNat (b : Byte) (nnn : Addr) :
    (zextByte b + addrImm nnn).toNat = b.toNat + nnn.toNat := by
  rw [BitVec.toNat_add, zextByte_toNat, addrImm_toNat]
  omega

/-- Settles O37: the sum stays below 2 ^ 16, so that it is the integer sum. -/
theorem indexedJumpAddsV0 : Obligations.IndexedJumpAddsV0 :=
  fun nnn s => ⟨Laws.EncodingRow.opBnnn nnn, _, rfl, zextByte_add_addrImm_toNat _ nnn, onlyChanges_setPc s _⟩

/-! ### Calls and returns -/

/-- The frame that a call and a return share: the stack is replaced, then pc. -/
theorem onlyChanges_setStack_setPc (l : List Word) (a : Word) :
    OnlyChanges [.pc, .stack] s ((s.setStack l).setPc a) :=
  ((onlyChanges_setStack s l).mono (by simp)).trans ((onlyChanges_setPc _ a).mono (by simp))

theorem exec2nnn_of_room (nnn : Addr) {s : State} (h : s.stack.length ≠ s.cfg.stackDepth) :
    exec2nnn nnn s = .next ((s.push s.pc).setPc (addrImm nnn)) := by
  simp [exec2nnn, State.stackFull, h]

theorem exec2nnn_of_full (nnn : Addr) {s : State} (h : s.stack.length = s.cfg.stackDepth) :
    exec2nnn nnn s = .next (s.raise .stackOverflow) := by
  simp [exec2nnn, State.stackFull, h]

/-- StackOverflow halts exactly under STRICT (R131, R151). -/
theorem status_raise_stackOverflow :
    (s.raise .stackOverflow).status = if s.cfg.strict then .halted else s.status := by
  rw [raise_eq]
  cases s.cfg.strict <;> simp

/-- Settles O33: with room the call pushes and jumps; on a full stack it raises StackOverflow and nothing more. -/
theorem callPushesAdvancedPc : Obligations.CallPushesAdvancedPc := by
  refine fun nnn s => ⟨Laws.EncodingRow.op2nnn nnn, fun hroom => ?_, fun hfull => ?_⟩
  · exact ⟨_, exec2nnn_of_room nnn hroom, rfl, addrImm_toNat nnn, onlyChanges_setStack_setPc s _ _⟩
  · exact ⟨_, exec2nnn_of_full nnn hfull, status_raise_stackOverflow s, onlyChanges_raise s _⟩

theorem exec00EE_of_cons {s : State} {a : Word} {rest : List Word} (h : s.stack = a :: rest) :
    exec00EE s = .next ((s.setStack rest).setPc a) := by
  simp [exec00EE, h]

theorem exec00EE_of_nil {s : State} (h : s.stack = []) : exec00EE s = .next (s.raise .stackUnderflow) := by
  simp [exec00EE, h]

/-- Settles O34: with an entry the return pops it into pc; on an empty stack it raises StackUnderflow, which halts. -/
theorem returnPopsPc : Obligations.ReturnPopsPc := by
  refine fun s => ⟨rfl, fun a rest hcons => ?_, fun hnil => ?_⟩
  · exact ⟨_, exec00EE_of_cons hcons, rfl, rfl, onlyChanges_setStack_setPc s rest a⟩
  · exact ⟨_, exec00EE_of_nil hnil, rfl, onlyChanges_raise s _⟩

end Machine

end Sys2Proof
end

section
/-! SUPPORT. Load, arithmetic, logic, shift and random (R85 to R96): the flags as numbers (R12), what the destination and
VF read as after a result with its flag (R73), and the byte results over the integers. -/

namespace Sys2Proof.Machine

/-! ### Flags as numbers (R12) -/

theorem flagByte_toNat (b : Bool) : (flagByte b).toNat = if b then 1 else 0 := by
  cases b <;> rfl

theorem carryFlag_toNat (a b : Byte) : (carryFlag a b).toNat = if 256 ≤ a.toNat + b.toNat then 1 else 0 := by
  simp [carryFlag, flagByte_toNat]

theorem noBorrowFlag_toNat (minuend subtrahend : Byte) :
    (noBorrowFlag minuend subtrahend).toNat = if subtrahend.toNat ≤ minuend.toNat then 1 else 0 := by
  simp [noBorrowFlag, flagByte_toNat]

/-- Bit 0 is the remainder by 2. -/
theorem rightOutFlag_toNat (a : Byte) : (rightOutFlag a).toNat = a.toNat % 2 := by
  rw [rightOutFlag, flagByte_toNat, BitVec.getLsbD, Nat.testBit_zero]
  simp only [decide_eq_true_eq]
  split <;> omega

/-- Bit 7 of a byte is its quotient by 128. -/
theorem leftOutFlag_toNat (a : Byte) : (leftOutFlag a).toNat = a.toNat / 128 := by
  rw [leftOutFlag, flagByte_toNat, BitVec.getLsbD, Nat.testBit_eq_decide_div_mod_eq]
  simp only [decide_eq_true_eq]
  split <;> omega

/-! ### Byte results as numbers -/

/-- The difference of bytes is the integer difference modulo 256 (R92, R94). -/
theorem byte_sub_toNat (a b : Byte) : ((a - b).toNat : Int) = (a.toNat - b.toNat : Int) % 256 := by
  rw [BitVec.toNat_sub]
  omega

theorem byte_ushiftRight_one_toNat (a : Byte) : (a >>> 1).toNat = a.toNat / 2 := by
  rw [BitVec.toNat_ushiftRight, Nat.shiftRight_eq_div_pow, Nat.pow_one]

theorem byte_shiftLeft_one_toNat (a : Byte) : (a <<< 1).toNat = a.toNat * 2 % 256 := by
  rw [BitVec.toNat_shiftLeft, Nat.shiftLeft_eq, Nat.pow_one]

variable (s : State)

/-! ### A result with its flag (R73) -/

/-- VF ends as the flag, also when it is the destination. -/
theorem readV_vf_writeResultFlag (x : RegIdx) (result flag : Byte) :
    (s.writeResultFlag x result flag).readV vf = flag := by
  simp [State.readV_writeResultFlag]

theorem readV_dest_writeResultFlag {x : RegIdx} (hx : x ≠ vf) (result flag : Byte) :
    (s.writeResultFlag x result flag).readV x = result := by
  simp [State.readV_writeResultFlag, hx]

variable {s} {i : Instr} {x : RegIdx} {result : Byte}

/-- What the five arithmetic and shift instructions share: VF is the flag, a property of the result is one of Vx unless
Vx is VF, and only these two registers change. -/
theorem exec_of_writeResultFlag {flag : Byte} {f : Nat} (P : Byte → Prop)
    (h : exec i s = .next (s.writeResultFlag x result flag)) (hresult : P result) (hflag : flag.toNat = f) :
    ∃ t, exec i s = .next t ∧ (x ≠ vf → P (t.readV x)) ∧ (t.readV vf).toNat = f ∧
      KeepsRegsExcept [x, vf] s t ∧ OnlyChanges [.v] s t := by
  refine ⟨_, h, fun hx => ?_, ?_, keepsRegs_writeResultFlag s x _ _, onlyChanges_writeResultFlag s x _ _⟩
  · rwa [readV_dest_writeResultFlag s hx]
  · rwa [readV_vf_writeResultFlag]

/-! ### Arithmetic and shifts -/

/-- Settles O41: the byte sum is the sum modulo 256, and the carry is that sum compared with 256. -/
theorem addReportsCarry : Obligations.AddReportsCarry :=
  fun x y s => ⟨Laws.EncodingRow.op8xy4 x y,
    exec_of_writeResultFlag (fun b => b.toNat = ((s.readV x).toNat + (s.readV y).toNat) % 256) rfl
      (BitVec.toNat_add _ _) (carryFlag_toNat _ _)⟩

/-- Settles O42: the byte difference is the integer difference modulo 256, in either order of the operands. -/
theorem subtractReportsNoBorrow : Obligations.SubtractReportsNoBorrow :=
  fun x y s => ⟨Laws.EncodingRow.op8xy5 x y, Laws.EncodingRow.op8xy7 x y,
    exec_of_writeResultFlag (fun b => (b.toNat : Int) = ((s.readV x).toNat - (s.readV y).toNat : Int) % 256) rfl
      (byte_sub_toNat _ _) (noBorrowFlag_toNat _ _),
    exec_of_writeResultFlag (fun b => (b.toNat : Int) = ((s.readV y).toNat - (s.readV x).toNat : Int) % 256) rfl
      (byte_sub_toNat _ _) (noBorrowFlag_toNat _ _)⟩

/-- Settles O43: a shift of Vy by one halves or doubles it, and the bit lost is the remainder or the quotient. -/
theorem shiftsTakeVyAndReportTheBitLost : Obligations.ShiftsTakeVyAndReportTheBitLost :=
  fun x y s => ⟨Laws.EncodingRow.op8xy6 x y, Laws.EncodingRow.op8xyE x y,
    exec_of_writeResultFlag (fun b => b.toNat = (s.readV y).toNat / 2) rfl
      (byte_ushiftRight_one_toNat _) (rightOutFlag_toNat _),
    exec_of_writeResultFlag (fun b => b.toNat = (s.readV y).toNat * 2 % 256) rfl
      (byte_shiftLeft_one_toNat _) (leftOutFlag_toNat _)⟩

/-- Settles O39: the byte sum is the sum modulo 256, and Vx is the only register written. -/
theorem addImmediateWrapsWithoutFlag : Obligations.AddImmediateWrapsWithoutFlag := by
  refine fun x kk s => ⟨Laws.EncodingRow.op7xkk x kk, _, rfl, ?_, keepsRegs_writeV s x _, onlyChanges_writeV s x _⟩
  rw [State.readV_writeV_same, BitVec.toNat_add]

/-! ### Loads, logic and random -/

/-- Settles O38: the register written reads as the byte written. -/
theorem loadsPutTheirSourceIntoVx : Obligations.LoadsPutTheirSourceIntoVx :=
  fun x y kk s => ⟨Laws.EncodingRow.op6xkk x kk, Laws.EncodingRow.op8xy0 x y,
    ⟨_, rfl, State.readV_writeV_same s x _, keepsRegs_writeV s x _, onlyChanges_writeV s x _⟩,
    ⟨_, rfl, State.readV_writeV_same s x _, keepsRegs_writeV s x _, onlyChanges_writeV s x _⟩⟩

/-- What the logic instructions and `Cxkk` share: Vx is the result, said bit by bit, and nothing else changes. -/
theorem exec_of_writeV_bits {bits : Nat → Bool} (h : exec i s = .next (s.writeV x result))
    (hbits : ∀ b, result.getLsbD b = bits b) :
    ∃ t, exec i s = .next t ∧ KeepsRegsExcept [x] s t ∧ OnlyChanges [.v] s t ∧
      ∀ b, b < 8 → (t.readV x).getLsbD b = bits b := by
  refine ⟨_, h, keepsRegs_writeV s x _, onlyChanges_writeV s x _, fun b _ => ?_⟩
  rw [State.readV_writeV_same, hbits]

/-- Settles O40: each bit of the result is made of the two bits at its place. -/
theorem logicWorksBitByBit : Obligations.LogicWorksBitByBit :=
  fun x y _ => ⟨Laws.EncodingRow.op8xy1 x y, Laws.EncodingRow.op8xy2 x y, Laws.EncodingRow.op8xy3 x y,
    exec_of_writeV_bits rfl fun _ => BitVec.getLsbD_or, exec_of_writeV_bits rfl fun _ => BitVec.getLsbD_and,
    exec_of_writeV_bits rfl fun _ => BitVec.getLsbD_xor⟩

/-- Settles O44: the random byte is masked bit by bit, whatever it is. -/
theorem randomIsMaskedByKk : Obligations.RandomIsMaskedByKk :=
  fun x kk _ => ⟨Laws.EncodingRow.opCxkk x kk, exec_of_writeV_bits rfl fun _ => BitVec.getLsbD_and⟩

end Sys2Proof.Machine
end

section
/-! SUPPORT. Address register and memory instructions (R100 to R105): the values I receives, the decimal digits of a byte,
and what a block store and a block load leave in memory and in the registers. -/

namespace Sys2Proof.Machine

variable {s t : State}

/-! ### The address register (R100 to R102) -/

/-- The last glyph address, 0x54B, fits the 16 bits of I, so that the sum of R102 never wraps. -/
theorem glyphAddr_toNat (g : Byte) : (glyphAddr g).toNat = 0x050 + 5 * g.toNat := by
  rw [glyphAddr, BitVec.toNat_ofNat, fontBase, glyphBytes]
  omega

/-- Settles O45: I receives the zero-extended immediate or the glyph address. -/
theorem indexLoadsSetI : Obligations.IndexLoadsSetI :=
  fun nnn x s => ⟨Laws.EncodingRow.opAnnn nnn, Laws.EncodingRow.opFx29 x,
    ⟨_, rfl, addrImm_toNat nnn, onlyChanges_setI s _⟩, ⟨_, rfl, glyphAddr_toNat _, onlyChanges_setI s _⟩⟩

/-- Settles O46: the sum of 16-bit words is the sum modulo 0x10000, and I is the only item written. -/
theorem addToIndexWrapsAtSixteenBits : Obligations.AddToIndexWrapsAtSixteenBits := by
  refine fun x s => ⟨Laws.EncodingRow.opFx1E x, _, rfl, ?_, onlyChanges_setI s _⟩
  rw [State.setI_i, BitVec.toNat_add, zextByte_toNat]

/-! ### Decimal digits (R103) -/

/-- The digits as numbers: none is cut off by the byte that holds it. -/
theorem bcdDigits_toNat (b : Byte) :
    (bcdDigits b).map BitVec.toNat = [b.toNat / 100, b.toNat / 10 % 10, b.toNat % 10] := by
  have hb := b.isLt
  simp only [bcdDigits, List.map_cons, List.map_nil, BitVec.toNat_ofNat, List.cons.injEq, and_true]
  omega

/-- After `Fx33` the address `I + k` holds digit k of Vx. -/
theorem readByte_toNat_of_execFx33 {x : RegIdx} (h : execFx33 x s = .next t) {k : Nat} (hk : k < 3) :
    (t.readByte (s.baseAddr k)).toNat =
      [(s.readV x).toNat / 100, (s.readV x).toNat / 10 % 10, (s.readV x).toNat % 10][k] := by
  refine of_next (P := fun t => (t.readByte (s.baseAddr k)).toNat = _) h ?_
  simp only [← bcdDigits_toNat, List.getElem_map]
  exact congrArg _ (readByte_writeBytes s _ (bcdDigits _) (by simp [bcdDigits]) k hk)

/-- `Fx33` writes only the three bytes from I on. -/
theorem keepsBytes_execFx33 {x : RegIdx} (h : execFx33 x s = .next t) :
    KeepsBytesExcept (fun a => ∃ k, k < 3 ∧ a = s.baseAddr k) s t :=
  of_next h fun a ha => readByte_writeBytes_other s _ _ a fun k hk he => ha ⟨k, hk, he⟩

/-- Settles O47: the bytes at I, I + 1 and I + 2 are the quotients and remainders that make up Vx. -/
theorem bcdStoresThreeDigits : Obligations.BcdStoresThreeDigits := by
  intro x s
  obtain ⟨t, ht⟩ := exec_next (.opFx33 x) s
  have hx : (s.readV x).toNat < 256 := (s.readV x).isLt
  have hhundreds : (t.readByte (s.baseAddr 0)).toNat = (s.readV x).toNat / 100 :=
    readByte_toNat_of_execFx33 ht (by decide)
  have htens : (t.readByte (s.baseAddr 1)).toNat = (s.readV x).toNat / 10 % 10 :=
    readByte_toNat_of_execFx33 ht (by decide)
  have hunits : (t.readByte (s.baseAddr 2)).toNat = (s.readV x).toNat % 10 :=
    readByte_toNat_of_execFx33 ht (by decide)
  refine ⟨Laws.EncodingRow.opFx33 x, t, ht, ?_, ?_, ?_, ?_, keepsBytes_execFx33 ht, exec_onlyChanges ht⟩ <;> omega

/-! ### Register blocks (R104, R105) -/

/-- `Fx55` writes only the bytes at I to I + x. -/
theorem keepsBytes_execFx55 {x : RegIdx} (h : execFx55 x s = .next t) :
    KeepsBytesExcept (fun a => ∃ k, k ≤ x.val ∧ a = s.baseAddr k) s t :=
  of_next h fun a ha => readByte_storeRegs_other s _ _ a fun r hr he =>
    ha ⟨r.val, Fin.le_def.1 ((mem_regBlock x r).1 hr), he⟩

/-- Settles O48: each register of the block reads back at its own address, and the other bytes are outside the block. -/
theorem blockStoreWritesV0ToVx : Obligations.BlockStoreWritesV0ToVx := by
  intro x s
  obtain ⟨t, ht⟩ := exec_next (.opFx55 x) s
  exact ⟨Laws.EncodingRow.opFx55 x, t, ht, fun _ hr => readByte_of_execFx55 hr ht, keepsBytes_execFx55 ht,
    exec_onlyChanges ht⟩

/-- After `Fx65` a register up to x holds the byte at its address, and one above x its old value. -/
theorem readV_of_execFx65 {x : RegIdx} (h : execFx65 x s = .next t) (r : RegIdx) :
    t.readV r = if r ≤ x then s.readByte (s.baseAddr r.val) else s.readV r := by
  refine of_next (P := fun t => t.readV r = _) h ?_
  simp only [readV_loadRegs, mem_regBlock, State.baseAddr]

/-- Settles O49: the registers of the block are loaded, and those above Vx are outside it. -/
theorem blockLoadReadsV0ToVx : Obligations.BlockLoadReadsV0ToVx := by
  intro x s
  obtain ⟨t, ht⟩ := exec_next (.opFx65 x) s
  refine ⟨Laws.EncodingRow.opFx65 x, t, ht, fun r hr => ?_, fun r hr => ?_, exec_onlyChanges ht⟩
  · rw [readV_of_execFx65 ht, if_pos hr]
  · rw [readV_of_execFx65 ht, if_neg (Fin.not_le.2 hr)]

/-- Settles O50: neither the store nor the load changes I, so that the load reads the bytes just stored. -/
theorem blockStoreThenLoadRestores : Obligations.BlockStoreThenLoadRestores := by
  intro x s v
  obtain ⟨t, ht⟩ := exec_next (.opFx55 x) s
  obtain ⟨u, hu⟩ := exec_next (.opFx65 x) { t with v := v }
  have hti : t.i = s.i := (exec_onlyChanges ht).1 .i (by simp [Instr.mayChange])
  have hui : u.i = t.i := (exec_onlyChanges hu).1 .i (by simp [Instr.mayChange])
  refine ⟨t, u, ht, hu, fun r hr => ?_, hui.trans hti⟩
  calc u.readV r = t.readByte (t.baseAddr r.val) := (readV_of_execFx65 hu r).trans (if_pos hr)
    _ = t.readByte (s.baseAddr r.val) := by rw [State.baseAddr, State.baseAddr, hti]
    _ = s.readV r := readByte_of_execFx55 hr ht

end Sys2Proof.Machine
end

section
/-! SUPPORT. The display (R110 to R112). A pixel, a byte of a row, a row and a sprite each toggle a set of pixels of the
grid and report whether one of them was set: `Toggles` says this once, and is closed under drawing disjoint sets one after
the other. The pixel loop and the byte-level form toggle the same pixels row by row, and so leave the same memory. -/

namespace Sys2Proof.Machine

variable {s t : State} {a b d : State × Bool} {bits p q : Nat → Nat → Bool} {vx row : Nat} {sprite : Byte}

/-! ### Clearing (R110) -/

/-- After `00E0` every byte of the frame buffer is 0. -/
theorem readByte_of_exec00E0 (h : exec00E0 s = .next t) {c : Addr} (hc : InFrameBuffer c) : t.readByte c = 0 := by
  refine of_next (P := fun t => t.readByte c = 0) h ?_
  have hlt := c.isLt
  obtain ⟨k, hk⟩ := Nat.exists_eq_add_of_le hc
  have hcea : c = ea (fbBase + k) := BitVec.eq_of_toNat_eq (by rw [ea_toNat]; omega)
  rw [hcea]
  exact readByte_zeroBytes s fbBase fbSize k (by decide) (by simp only [fbBase, fbSize] at *; omega)

/-- Settles O51: the run of 256 zeros covers every address from 0xF00 on, and no other. -/
theorem clearZeroesTheFrameBuffer : Obligations.ClearZeroesTheFrameBuffer := by
  intro s
  obtain ⟨t, ht⟩ := exec_next .op00E0 s
  exact ⟨rfl, t, ht, fun _ hc => readByte_of_exec00E0 ht hc, keepsBytes_exec00E0 ht, exec_onlyChanges ht⟩

/-! ### The frame buffer as pixels (R34, R35) -/

/-- The byte of index k of a row holds exactly the pixels of the row whose column divides to k. -/
theorem pixelAddr_eq_iff {c r k : Nat} (hc : c < cols) (hr : r < rows) (hk : k < 8) (hrow : row < rows) :
    pixelAddr c r = ea (fbBase + 8 * row + k) ↔ r = row ∧ c / 8 = k := by
  rw [pixelAddr, ea_eq_iff]
  simp only [fbBase, cols, rows] at *
  omega

/-- Every byte of the frame buffer is the byte of index k of a row of the grid. -/
theorem exists_rowByte {c : Addr} (hc : InFrameBuffer c) :
    ∃ row k, row < rows ∧ k < 8 ∧ c = ea (fbBase + 8 * row + k) := by
  have hlt := c.isLt
  refine ⟨(c.toNat - fbBase) / 8, (c.toNat - fbBase) % 8, ?_, by omega, BitVec.eq_of_toNat_eq ?_⟩ <;>
    simp only [InFrameBuffer, ea_toNat, fbBase, rows] at * <;> omega

/-- Bit i of the byte of index k of a row is the pixel at column `8 * k + (7 - i)`. -/
theorem pixel_rowByte (s : State) (row k : Nat) {i : Nat} (hi : i < 8) :
    s.pixel (8 * k + (7 - i)) row = (s.readByte (ea (fbBase + 8 * row + k))).getLsbD i := by
  rw [State.pixel, pixelAddr, pixelBit, show (8 * k + (7 - i)) / 8 = k by omega,
    show 7 - (8 * k + (7 - i)) % 8 = i by omega]

/-- Memory is the same where the pixels of the grid and the bytes outside the frame buffer are. -/
theorem same_mem_of_pixels (hpix : ∀ c r, c < cols → r < rows → t.pixel c r = s.pixel c r)
    (hout : KeepsBytesExcept InFrameBuffer s t) : Item.mem.Same s t := by
  intro c
  by_cases hc : InFrameBuffer c
  · obtain ⟨row, k, hrow, hk, rfl⟩ := exists_rowByte hc
    refine BitVec.eq_of_getLsbD_eq fun i hi => ?_
    rw [← pixel_rowByte t row k hi, ← pixel_rowByte s row k hi]
    exact hpix _ _ (by simp only [cols]; omega) hrow
  · exact hout c hc

/-- A pixel depends on memory alone. -/
theorem pixel_of_same_mem (h : Item.mem.Same s t) (c r : Nat) : t.pixel c r = s.pixel c r := by
  rw [State.pixel, h, State.pixel]

theorem keepsBytes_writeByte {c : Addr} (hc : InFrameBuffer c) (s : State) (x : Byte) :
    KeepsBytesExcept InFrameBuffer s (s.writeByte c x) :=
  fun _ hne => State.readByte_writeByte_other s x fun he => hne (he ▸ hc)

/-! ### Toggling a set of pixels -/

/-- From one drawing under way to another: the pixels of the grid in a set are toggled, the flag is raised if one of them
was set, and no byte outside the frame buffer changes (R111). -/
structure Toggles (bits : Nat → Nat → Bool) (a b : State × Bool) : Prop where
  pixel : ∀ c r, c < cols → r < rows → b.1.pixel c r = (a.1.pixel c r ^^ bits c r)
  flag : b.2 = true ↔ a.2 = true ∨ ∃ c r, c < cols ∧ r < rows ∧ a.1.pixel c r = true ∧ bits c r = true
  bytes : KeepsBytesExcept InFrameBuffer a.1 b.1

/-- Doing nothing toggles a set that has no pixel on the grid. -/
theorem Toggles.of_none (h : ∀ c r, c < cols → r < rows → bits c r = false) : Toggles bits a a where
  pixel c r hc hr := by rw [h c r hc hr, Bool.xor_false]
  flag := by
    refine ⟨.inl, fun ha => ha.resolve_right ?_⟩
    rintro ⟨c, r, hc, hr, -, hb⟩
    simp [h c r hc hr] at hb
  bytes _ _ := rfl

/-- Toggling one set and then a disjoint one toggles their union: no pixel of the second was touched by the first. -/
theorem Toggles.trans (h₁ : Toggles p a b) (h₂ : Toggles q b d)
    (hdisj : ∀ c r, c < cols → r < rows → p c r = true → q c r = false)
    (hunion : ∀ c r, c < cols → r < rows → bits c r = (p c r || q c r)) : Toggles bits a d where
  pixel c r hc hr := by
    rw [h₂.pixel c r hc hr, h₁.pixel c r hc hr, hunion c r hc hr]
    cases hp : p c r
    · simp
    · simp [hdisj c r hc hr hp]
  flag := by
    have huntouched : ∀ c r, c < cols → r < rows → q c r = true → b.1.pixel c r = a.1.pixel c r := by
      intro c r hc hr hq
      have hp : p c r = false := Bool.eq_false_iff.2 fun hp => by simp [hdisj c r hc hr hp] at hq
      rw [h₁.pixel c r hc hr, hp, Bool.xor_false]
    rw [h₂.flag, h₁.flag, or_assoc]
    refine or_congr_right ⟨?_, ?_⟩
    · rintro (⟨c, r, hc, hr, ha, hp⟩ | ⟨c, r, hc, hr, hb, hq⟩)
      · exact ⟨c, r, hc, hr, ha, by simp [hunion c r hc hr, hp]⟩
      · exact ⟨c, r, hc, hr, huntouched c r hc hr hq ▸ hb, by simp [hunion c r hc hr, hq]⟩
    · rintro ⟨c, r, hc, hr, ha, hbits⟩
      rw [hunion c r hc hr, Bool.or_eq_true] at hbits
      rcases hbits with hp | hq
      · exact .inl ⟨c, r, hc, hr, ha, hp⟩
      · exact .inr ⟨c, r, hc, hr, (huntouched c r hc hr hq).trans ha, hq⟩
  bytes c hc := (h₂.bytes c hc).trans (h₁.bytes c hc)

/-! ### The pixel loop (R111) -/

/-- One pixel of a sprite row. -/
theorem toggles_drawPixel (hrow : row < rows) (vx : Nat) (sprite : Byte) (a : State × Bool) (j : Nat) :
    Toggles (fun c r => decide (r = row ∧ c = vx + j) && sprite.getLsbD (7 - j)) a (drawPixel vx row sprite a j) := by
  unfold drawPixel
  split
  · next hd =>
    obtain ⟨hcol, hbit⟩ := hd
    refine ⟨fun c r hc hr => ?_, ?_, keepsBytes_writeByte (pixelAddr_inFrameBuffer hcol hrow) _ _⟩
    · simp [pixel_flipPixel a.1 hcol hrow hc hr, hbit, and_comm]
    · rw [Bool.or_eq_true]
      refine or_congr_right ⟨fun ha => ⟨vx + j, row, hcol, hrow, ha, by simp [hbit]⟩, ?_⟩
      rintro ⟨c, r, -, -, ha, hb⟩
      obtain ⟨⟨rfl, rfl⟩, -⟩ : (r = row ∧ c = vx + j) ∧ _ := by simpa using hb
      exact ha
  · next hd =>
    refine Toggles.of_none fun c r hc _ => ?_
    rw [Bool.and_eq_false_iff, decide_eq_false_iff_not, ← Bool.not_eq_true]
    by_cases hc' : c = vx + j
    · exact .inr fun hbit => hd ⟨hc' ▸ hc, hbit⟩
    · exact .inl fun h => hc' h.2

/-- The set bits of the first m pixels of a sprite row, at their places on the plane. -/
def rowBits (vx row : Nat) (sprite : Byte) (m c r : Nat) : Bool :=
  decide (r = row ∧ vx ≤ c ∧ c < vx + m) && sprite.getLsbD (7 - (c - vx))

theorem rowBits_eq_false {m c r : Nat} (h : ¬ (r = row ∧ vx ≤ c ∧ c < vx + m)) : rowBits vx row sprite m c r = false := by
  simp [rowBits, h]

/-- One more pixel of a sprite row. -/
theorem rowBits_succ (vx row : Nat) (sprite : Byte) (m c r : Nat) : rowBits vx row sprite (m + 1) c r =
    (rowBits vx row sprite m c r || decide (r = row ∧ c = vx + m) && sprite.getLsbD (7 - m)) := by
  unfold rowBits
  by_cases hc : c = vx + m
  · subst hc; simp
  · have hiff : (r = row ∧ vx ≤ c ∧ c < vx + (m + 1)) ↔ (r = row ∧ vx ≤ c ∧ c < vx + m) := by omega
    simp [hiff, hc]

/-- The first m pixels of a sprite row on the grid, one after the other. -/
theorem toggles_drawPixels (hrow : row < rows) (vx : Nat) (sprite : Byte) (a : State × Bool) (m : Nat) :
    Toggles (rowBits vx row sprite m) a ((List.range m).foldl (drawPixel vx row sprite) a) := by
  induction m with
  | zero => exact Toggles.of_none fun c r _ _ => rowBits_eq_false (by omega)
  | succ m ih =>
    rw [List.range_succ, List.foldl_append]
    refine ih.trans (toggles_drawPixel hrow vx sprite _ m) (fun c r _ _ hp => ?_)
      (fun c r _ _ => rowBits_succ vx row sprite m c r)
    have hm : r = row ∧ vx ≤ c ∧ c < vx + m := by
      by_contra h
      simp [rowBits_eq_false h] at hp
    have hne : ¬ (r = row ∧ c = vx + m) := by omega
    simp [hne]

theorem toggles_drawRow (vx row : Nat) (sprite : Byte) (a : State × Bool) :
    Toggles (rowBits vx row sprite 8) a (drawRow vx row sprite a) := by
  unfold drawRow
  split
  · next hrow => exact toggles_drawPixels hrow vx sprite a 8
  · next hrow => exact Toggles.of_none fun c r _ hr => rowBits_eq_false (by omega)

/-! ### The byte-level form (R112) -/

/-- The set bits of a mask over the byte of index k of a row, at their places on the plane. -/
def byteBits (row k : Nat) (mask : Byte) (c r : Nat) : Bool :=
  decide (r = row ∧ c / 8 = k) && mask.getLsbD (pixelBit c)

/-- A byte is not 0 exactly when it has a set bit. -/
theorem byte_ne_zero_iff (x : Byte) : x ≠ 0 ↔ ∃ i, i < 8 ∧ x.getLsbD i = true := by
  rw [not_iff_comm]
  push Not
  refine ⟨fun h => BitVec.eq_of_getLsbD_eq fun i hi => ?_, ?_⟩
  · simpa using h i hi
  · rintro rfl i -
    simp

/-- A byte of a row and a mask share a set bit exactly when a pixel of the mask's set bits is set. -/
theorem and_mask_ne_zero_iff (hrow : row < rows) {k : Nat} (hk : k < 8) (mask : Byte) (s : State) :
    s.readByte (ea (fbBase + 8 * row + k)) &&& mask ≠ 0 ↔
      ∃ c r, c < cols ∧ r < rows ∧ s.pixel c r = true ∧ byteBits row k mask c r = true := by
  rw [byte_ne_zero_iff]
  constructor
  · rintro ⟨i, hi, hbit⟩
    rw [BitVec.getLsbD_and, Bool.and_eq_true, ← pixel_rowByte s row k hi] at hbit
    have hdiv : (8 * k + (7 - i)) / 8 = k := by omega
    have hpos : pixelBit (8 * k + (7 - i)) = i := by simp only [pixelBit]; omega
    exact ⟨8 * k + (7 - i), row, by simp only [cols]; omega, hrow, hbit.1, by simp [byteBits, hdiv, hpos, hbit.2]⟩
  · rintro ⟨c, r, hc, hr, hpix, hbit⟩
    simp only [byteBits, Bool.and_eq_true, decide_eq_true_eq] at hbit
    obtain ⟨hplace, hmask⟩ := hbit
    rw [State.pixel, (pixelAddr_eq_iff hc hr hk hrow).2 hplace] at hpix
    exact ⟨pixelBit c, by simp only [pixelBit]; omega, by simp [hpix, hmask]⟩

/-- XORing a mask into a byte of a row of the grid toggles the pixels of its set bits; past the row there are none. -/
theorem toggles_xorRowByte (hrow : row < rows) (k : Nat) (mask : Byte) (a : State × Bool) :
    Toggles (byteBits row k mask) a (xorRowByte row k mask a) := by
  unfold xorRowByte
  split
  · next hk =>
    have hin : InFrameBuffer (ea (fbBase + 8 * row + k)) := by
      simp only [InFrameBuffer, ea_toNat, fbBase, rows] at *
      omega
    refine ⟨fun c r hc hr => ?_, ?_, keepsBytes_writeByte hin _ _⟩
    · simp only [State.pixel, byteBits, State.readByte_writeByte, pixelAddr_eq_iff hc hr hk hrow]
      split
      · next h => simp [← (pixelAddr_eq_iff hc hr hk hrow).2 h, h]
      · next h => simp [h]
    · rw [Bool.or_eq_true, bne_iff_ne, and_mask_ne_zero_iff hrow hk]
  · next hk =>
    refine Toggles.of_none fun c r hc _ => ?_
    have hne : ¬ (r = row ∧ c / 8 = k) := by simp only [cols] at hc; omega
    simp [byteBits, hne]

/-- The sprite byte shifted right covers the pixels from vx to the end of byte `vx / 8`. -/
theorem byteBits_ushiftRight (vx row : Nat) (sprite : Byte) (c r : Nat) :
    byteBits row (vx / 8) (sprite >>> (vx % 8)) c r =
      (decide (r = row ∧ c / 8 = vx / 8 ∧ vx ≤ c) && sprite.getLsbD (7 - (c - vx))) := by
  rw [byteBits, BitVec.getLsbD_ushiftRight, pixelBit]
  by_cases hdiv : c / 8 = vx / 8
  · by_cases hge : vx ≤ c
    · rw [show vx % 8 + (7 - c % 8) = 7 - (c - vx) by omega]
      simp [hdiv, hge]
    · rw [BitVec.getLsbD_of_ge sprite _ (by omega)]
      simp [hge]
  · simp [hdiv]

/-- The bits that fall out cover the pixels of the next byte up to `vx + 7`. -/
theorem byteBits_shiftLeft (vx row : Nat) (sprite : Byte) (c r : Nat) :
    byteBits row (vx / 8 + 1) (sprite <<< (8 - vx % 8)) c r =
      (decide (r = row ∧ c / 8 = vx / 8 + 1 ∧ c < vx + 8) && sprite.getLsbD (7 - (c - vx))) := by
  rw [byteBits, BitVec.getLsbD_shiftLeft, pixelBit]
  by_cases hdiv : c / 8 = vx / 8 + 1
  · have hwidth : 7 - c % 8 < 8 := by omega
    have hlow : 7 - c % 8 < 8 - vx % 8 ↔ ¬ c < vx + 8 := by omega
    by_cases hlt : c < vx + 8
    · rw [show 7 - c % 8 - (8 - vx % 8) = 7 - (c - vx) by omega]
      simp [hdiv, hwidth, hlow, hlt]
    · simp [hlow, hlt]
  · simp [hdiv]

/-- A sprite row is the union of the two bytes of the form. -/
theorem rowBits_eq_byteBits (vx row : Nat) (sprite : Byte) (c r : Nat) : rowBits vx row sprite 8 c r =
    (byteBits row (vx / 8) (sprite >>> (vx % 8)) c r || byteBits row (vx / 8 + 1) (sprite <<< (8 - vx % 8)) c r) := by
  rw [byteBits_ushiftRight, byteBits_shiftLeft, ← Bool.and_or_distrib_right, ← Bool.decide_or, rowBits]
  congr 2
  rw [eq_iff_iff]
  omega

theorem toggles_drawRowBytes (vx row : Nat) (sprite : Byte) (a : State × Bool) :
    Toggles (rowBits vx row sprite 8) a (drawRowBytes vx row sprite a) := by
  unfold drawRowBytes
  split
  · next hrow =>
    have hleft := toggles_xorRowByte hrow (vx / 8) (sprite >>> (vx % 8)) a
    have hunion := rowBits_eq_byteBits vx row sprite
    dsimp only
    split
    · refine hleft.trans (toggles_xorRowByte hrow _ _ _) (fun c r _ _ hp => ?_) (fun c r _ _ => hunion c r)
      simp only [byteBits, Bool.and_eq_true, decide_eq_true_eq] at hp
      have hne : c / 8 ≠ vx / 8 + 1 := by omega
      simp [byteBits, hne]
    · next haligned =>
      refine hleft.trans (Toggles.of_none (bits := fun _ _ => false) fun _ _ _ _ => rfl) (fun _ _ _ _ _ => rfl)
        fun c r _ _ => ?_
      have hempty : sprite <<< (8 - vx % 8) = 0 := by
        rw [show 8 - vx % 8 = 8 by omega]
        exact BitVec.shiftLeft_eq_zero (Nat.le_refl 8)
      rw [hunion, hempty]
      simp [byteBits]
  · next hrow => exact Toggles.of_none fun c r _ hr => rowBits_eq_false (by omega)

/-- Two drawings under way over the same memory and with the same flag. -/
def SameDrawing (a b : State × Bool) : Prop := Item.mem.Same a.1 b.1 ∧ a.2 = b.2

/-- Toggling a set of pixels fixes the memory and the flag. -/
theorem Toggles.sameDrawing {a' b' : State × Bool} (ha : Toggles bits a a') (hb : Toggles bits b b')
    (h : SameDrawing a b) : SameDrawing a' b' := by
  obtain ⟨hmem, hflag⟩ := h
  have hpix := pixel_of_same_mem hmem
  refine ⟨same_mem_of_pixels (fun c r hc hr => ?_) (fun c hc => ?_), ?_⟩
  · rw [hb.pixel c r hc hr, ha.pixel c r hc hr, hpix]
  · rw [hb.bytes c hc, ha.bytes c hc, hmem c]
  · rw [Bool.eq_iff_iff, ha.flag, hb.flag, hflag]
    simp only [hpix]

/-- Row by row the two forms read the same sprite byte, since they leave the same memory (R112). -/
theorem sameDrawing_drawSprite (vx vy base : Nat) (s : State) (n : Nat) :
    SameDrawing (drawSprite vx vy base s n) (drawSpriteBytes vx vy base s n) := by
  induction n with
  | zero => exact ⟨fun _ => rfl, rfl⟩
  | succ n ih =>
    rw [drawSprite, drawSpriteBytes, ih.1]
    exact (toggles_drawRow ..).sameDrawing (toggles_drawRowBytes ..) ih

/-- Settles O52: the pixel loop and the byte-level form toggle the same pixels in every row. -/
theorem drawAgreesWithByteForm : Obligations.DrawAgreesWithByteForm := by
  intro x y n s
  obtain ⟨hmem, hflag⟩ := sameDrawing_drawSprite (s.readV x).toNat (s.readV y).toNat s.i.toNat s n.val
  refine ⟨Laws.EncodingRow.opDxyn x y n, _, rfl, fun c => (hmem c).symm, ?_, keepsBytes_execDxyn rfl,
    keepsRegs_execDxyn rfl, exec_onlyChanges (i := .opDxyn x y n) rfl⟩
  rw [State.readV_writeV_same, collisionFlag, flagByte_toNat, hflag]

/-! ### The sprite (R111, R35) -/

/-- One more row of a sprite. -/
theorem spriteBit_succ (s : State) (vx vy n c r : Nat) : spriteBit s vx vy (n + 1) c r =
    (spriteBit s vx vy n c r || rowBits vx (vy + n) (s.readByte (s.baseAddr n)) 8 c r) := by
  unfold spriteBit rowBits
  by_cases hr : r = vy + n
  · subst hr; simp
  · have hiff : (vy ≤ r ∧ r < vy + (n + 1) ∧ vx ≤ c ∧ c < vx + 8) ↔ (vy ≤ r ∧ r < vy + n ∧ vx ≤ c ∧ c < vx + 8) := by
      omega
    simp only [hiff, hr, false_and, decide_false, Bool.false_and, Bool.or_false]

/-- A set sprite bit lies in the sprite's rows. -/
theorem row_of_spriteBit {vy n c r : Nat} (h : spriteBit s vx vy n c r = true) : vy ≤ r ∧ r < vy + n := by
  simp only [spriteBit, Bool.and_eq_true, decide_eq_true_eq] at h
  omega

/-- The sprite depends on its own bytes alone. -/
theorem spriteBit_congr (vx vy : Nat) {n : Nat} (h : ∀ k, k < n → t.readByte (t.baseAddr k) = s.readByte (s.baseAddr k))
    (c r : Nat) : spriteBit t vx vy n c r = spriteBit s vx vy n c r := by
  unfold spriteBit
  by_cases hplace : vy ≤ r ∧ r < vy + n ∧ vx ≤ c ∧ c < vx + 8
  · rw [h (r - vy) (by omega)]
  · simp [hplace]

/-- With no sprite byte in the frame buffer every row is drawn from the byte that s holds, and the rows are disjoint. -/
theorem toggles_drawSprite (vx vy : Nat) {n : Nat} (hout : ∀ k, k < n → ¬ InFrameBuffer (s.baseAddr k)) :
    Toggles (spriteBit s vx vy n) (s, false) (drawSprite vx vy s.i.toNat s n) := by
  induction n with
  | zero => exact Toggles.of_none fun c r _ _ => by simp [spriteBit]; omega
  | succ n ih =>
    have hrows := ih fun k hk => hout k (by omega)
    have hbyte : (drawSprite vx vy s.i.toNat s n).1.readByte (ea (s.i.toNat + n)) = s.readByte (s.baseAddr n) :=
      hrows.bytes _ (hout n (by omega))
    rw [drawSprite, hbyte]
    refine hrows.trans (toggles_drawRow ..) (fun c r _ _ hp => ?_) fun c r _ _ => spriteBit_succ s vx vy n c r
    have hr := row_of_spriteBit hp
    exact rowBits_eq_false (by omega)

/-- A flag is 1 exactly when its condition holds (R12). -/
theorem flagByte_eq_one_iff (b : Bool) : flagByte b = 1 ↔ b = true := by
  cases b <;> decide

/-- Settles O53: the drawing started from a lowered flag, and VF receives the flag. -/
theorem drawTogglesTheSpritesPixels : Obligations.DrawTogglesTheSpritesPixels := by
  intro x y n s hout
  have hdraw := toggles_drawSprite (s.readV x).toNat (s.readV y).toNat hout
  refine ⟨_, rfl, hdraw.pixel, readV_vf_writeV_flagByte _ _, ?_⟩
  rw [State.readV_writeV_same, collisionFlag, flagByte_eq_one_iff, hdraw.flag]
  simp [cols, rows]

/-! ### The same draw twice (S7) -/

/-- After `00E0` every pixel of the grid is clear. -/
theorem pixel_of_exec00E0 (h : exec00E0 s = .next t) {c r : Nat} (hc : c < cols) (hr : r < rows) :
    t.pixel c r = false := by
  rw [State.pixel, readByte_of_exec00E0 h (pixelAddr_inFrameBuffer hc hr)]
  exact BitVec.getLsbD_zero

/-- A sprite outside the frame buffer is the same sprite after a change of the frame buffer that keeps I. -/
theorem sameSprite_of_keepsBytes {n : Nat} (hi : t.i = s.i) (hbytes : KeepsBytesExcept InFrameBuffer s t)
    (hout : ∀ k, k < n → ¬ InFrameBuffer (s.baseAddr k)) :
    (∀ k, k < n → ¬ InFrameBuffer (t.baseAddr k)) ∧
      ∀ vx vy c r, spriteBit t vx vy n c r = spriteBit s vx vy n c r := by
  have haddr : ∀ k, t.baseAddr k = s.baseAddr k := fun k => by rw [State.baseAddr, hi, State.baseAddr]
  refine ⟨fun k hk => haddr k ▸ hout k hk, fun vx vy => spriteBit_congr vx vy fun k hk => ?_⟩
  rw [haddr k]
  exact hbytes _ (hout k hk)

/-- Settles O54: both draws toggle the sprite's pixels, the first from a clear grid, the second from the sprite itself. -/
theorem drawingTwiceRestoresAndCollides : Obligations.DrawingTwiceRestoresAndCollides := by
  intro x y n s hx hy hout
  obtain ⟨c, hc⟩ := exec_next .op00E0 s
  have hcv : ∀ r, c.readV r = s.readV r := (exec_onlyChanges hc).1 .v (by simp [Instr.mayChange])
  have hci : c.i = s.i := (exec_onlyChanges hc).1 .i (by simp [Instr.mayChange])
  obtain ⟨houtc, hbitc⟩ := sameSprite_of_keepsBytes hci (keepsBytes_exec00E0 hc) hout
  obtain ⟨t, ht, htpix, htvf, htone⟩ := drawTogglesTheSpritesPixels x y n c houtc
  have htv : ∀ r, r ≠ vf → t.readV r = s.readV r :=
    fun r hr => (keepsRegs_execDxyn ht r (by simpa using hr)).trans (hcv r)
  have hti : t.i = c.i := (exec_onlyChanges ht).1 .i (by simp [Instr.mayChange])
  obtain ⟨houtt, hbitt⟩ := sameSprite_of_keepsBytes hti (keepsBytes_execDxyn ht) houtc
  obtain ⟨u, hu, hupix, huvf, huone⟩ := drawTogglesTheSpritesPixels x y n t houtt
  simp only [hcv, hbitc] at htpix htone
  simp only [htv x hx, htv y hy, hbitt, hbitc] at hupix huone
  have hclear : ∀ col row, col < 64 → row < 32 → c.pixel col row = false := fun _ _ => pixel_of_exec00E0 hc
  have hsprite : ∀ col row, col < 64 → row < 32 →
      t.pixel col row = spriteBit s (s.readV x).toNat (s.readV y).toNat n.val col row := by
    intro col row hcol hrow
    rw [htpix col row hcol hrow, hclear col row hcol hrow, Bool.false_xor]
  refine ⟨c, t, u, hc, ht, hu, same_mem_of_pixels (fun col row hcol hrow => ?_) (fun a ha => ?_),
    htvf.resolve_right fun hone => ?_, huvf, huone.trans ?_⟩
  · rw [hupix col row hcol hrow, hsprite col row hcol hrow, Bool.xor_self, hclear col row hcol hrow]
  · exact (keepsBytes_execDxyn hu a ha).trans (keepsBytes_execDxyn ht a ha)
  · obtain ⟨col, row, hcol, hrow, hset, -⟩ := htone.1 hone
    simp [hclear col row hcol hrow] at hset
  · constructor
    · rintro ⟨col, row, hcol, hrow, -, hbit⟩
      exact ⟨col, row, hcol, hrow, hbit⟩
    · rintro ⟨col, row, hcol, hrow, hbit⟩
      exact ⟨col, row, hcol, hrow, (hsprite col row hcol hrow).trans hbit, hbit⟩

end Sys2Proof.Machine
end

section
/-! SUPPORT. Keypad and timers (R120 to R125): the level of the key a byte names, what the execute phase of each of the
six instructions makes of the state, and what a whole step leaves of it after the timer check. -/

namespace Sys2Proof.Machine

variable {s u : State}

/-! ### Keys (R120, R121) -/

/-- A byte that is the number of a key asks for the level of that key (R146). -/
theorem pressed_of_key {k : Key} {b : Byte} (h : b.toNat = k.val) : s.pressed b = s.inputs.keys[k] := by
  simp [State.pressed, h]

/-- A byte that is the number of no key is never down (D9). -/
theorem pressed_of_noKey {b : Byte} (h : 16 ≤ b.toNat) : s.pressed b = false := by
  simp [State.pressed, Nat.not_lt.2 h]

/-- Settles O55: both instructions ask for the level that Vx names, which for a number above 15 is up. -/
theorem skipsOnKeyLevel : Obligations.SkipsOnKeyLevel := by
  refine fun x s => ⟨Laws.EncodingRow.opEx9E x, Laws.EncodingRow.opExA1 x, _, _, rfl, rfl, onlyChanges_skipIf s _,
    onlyChanges_skipIf s _, fun k hk => ?_, fun hno => ?_⟩
  · rw [pressed_of_key hk]
    cases s.inputs.keys[k] <;> exact ⟨rfl, rfl⟩
  · rw [pressed_of_noKey hno]
    exact ⟨rfl, rfl⟩

/-- Settles O58: the execution state is the only item written. -/
theorem keyWaitBegins : Obligations.KeyWaitBegins :=
  fun x s => ⟨Laws.EncodingRow.opFx0A x, _, rfl, rfl, onlyChanges_setStatus s _⟩

/-! ### Timers (R122, R124, R125) -/

/-- A step that runs an instruction answers the registers of the execute phase, and its timers counted down if the input
`tick_due` is true (R69, R71, D13). -/
theorem step_of_exec {i : Instr} (hd : StepDue s) (hp : s.pc.toNat < pcLimit) (hi : decodeWord s.fetched = .ok i)
    (hu : exec i s.atExecute = .next u) :
    ∃ t, step s = .next t ∧ (∀ r, t.readV r = u.readV r) ∧
      (t.dt.toNat = if s.nextInputs.tickDue then u.dt.toNat - 1 else u.dt.toNat) ∧
      (t.st.toNat = if s.nextInputs.tickDue then u.st.toNat - 1 else u.st.toNat) := by
  have hstep : step s = .next (u.timerCheck.setPresent true) := by
    rw [(stepRunsDecodedInstruction s i hd hp hi).1, hu, thenNext_next]
  have hinputs : u.inputs = s.nextInputs := (exec_onlyChanges hu).2.inputs.trans (atExecute_inputs s)
  have hv : Item.v.Same u (u.timerCheck.setPresent true) := same_timerCheck_present u true (by simp) (by simp)
  exact ⟨_, hstep, hv, hinputs ▸ dt_timerCheck_present u true, hinputs ▸ st_timerCheck_present u true⟩

/-- Settles O56: the execute phase finds DT as it was before the step and leaves it for the timer check. -/
theorem delayTimerIsReadBeforeTheCheck : Obligations.DelayTimerIsReadBeforeTheCheck := by
  refine ⟨fun x s => ⟨Laws.EncodingRow.opFx07 x, _, rfl, State.readV_writeV_same s x _, keepsRegs_writeV s x _,
    onlyChanges_writeV s x _⟩, fun x s hd hp hi => ?_⟩
  obtain ⟨t, hstep, hv, hdt, -⟩ := step_of_exec hd hp hi rfl
  refine ⟨t, hstep, ?_, ?_⟩
  · rw [hv, State.readV_writeV_same, atExecute_dt]
  · rw [hdt, State.writeV_dt, atExecute_dt]

/-- Settles O57: the execute phase leaves Vx in the timer, and the timer check comes after it. -/
theorem timerWritesCountInTheSameStep : Obligations.TimerWritesCountInTheSameStep := by
  refine ⟨fun x s => ⟨Laws.EncodingRow.opFx15 x, Laws.EncodingRow.opFx18 x, ⟨_, rfl, rfl, onlyChanges_setDT s _⟩,
    ⟨_, rfl, rfl, onlyChanges_setST s _⟩⟩, fun x s hd hp => ⟨fun hi => ?_, fun hi => ?_⟩⟩
  · obtain ⟨t, hstep, -, hdt, -⟩ := step_of_exec hd hp hi rfl
    exact ⟨t, hstep, by rw [hdt, State.setDT_dt, readV_atExecute]⟩
  · obtain ⟨t, hstep, -, -, hst⟩ := step_of_exec hd hp hi rfl
    exact ⟨t, hstep, by rw [hst, State.setST_st, readV_atExecute]⟩

end Sys2Proof.Machine
end

section
/-! SUPPORT. The driving loop and its events (R133 to R139, R143): the cases of an iteration, said once, and what each of
them makes of the execution state. -/

namespace Sys2Proof

open Machine

/-! ### The words that touch the execution state (R54, R56) -/

/-- The decoder answers i on one word only, the word of i (R54, R55). -/
theorem decodeWord_eq_ok_iff {word : Word} {i : Instr} : decodeWord word = .ok i ↔ word = encode i :=
  ⟨fun h => (encode_of_decodeWord h).symm, fun h => h ▸ decodeWord_encode i⟩

theorem decodeWord_eq_op00EE_iff (word : Word) : decodeWord word = .ok .op00EE ↔ word = 0x00EE :=
  decodeWord_eq_ok_iff

theorem decodeWord_eq_op2nnn_iff (word : Word) :
    (∃ nnn, decodeWord word = .ok (.op2nnn nnn)) ↔ word.toNat / 0x1000 = 2 := by
  constructor
  · rintro ⟨nnn, h⟩
    rw [← fieldW_toNat, decodeWord_eq_ok_iff.1 h]
    exact congrArg BitVec.toNat (fieldW_formatNNN 0x2 nnn)
  · intro hw
    exact ⟨fieldNNN word, decodeWord_eq_ok_iff.2 (formatNNN_of_fields (w := 0x2) ((fieldW_toNat word).trans hw) rfl).symm⟩

theorem decodeWord_eq_opFx0A_iff (word : Word) (x : RegIdx) :
    decodeWord word = .ok (.opFx0A x) ↔ word.toNat = 0xF00A + 0x100 * x.val := by
  have hword : (encode (.opFx0A x)).toNat = 0xF00A + 0x100 * x.val :=
    (formatXKK_toNat 0xF x 0x0A).trans (by change 0xF * 0x1000 + (x.val * 0x100 + 0x0A) = _; omega)
  rw [decodeWord_eq_ok_iff, ← BitVec.toNat_inj, hword]

theorem wordDefined_eq_false_iff (word : Word) : wordDefined word = false ↔ ∃ e, decodeWord word = .error e := by
  rw [← Bool.not_eq_true, ← decoderAcceptsExactlyTheMap.2]
  cases decodeWord word <;> simp

/-! ### The execution state after the execute phase (R69, R70) -/

/-- The execution state that an instruction leaves: a return on an empty stack halts, and so does a call on a full one
under STRICT; `Fx0A` begins the wait; every other instruction keeps it (R75, R77, R123, R131). -/
def Instr.statusAfter (s : State) : Instr → ExecState
  | .op00EE => if s.stack = [] then .halted else s.status
  | .op2nnn _ => if s.cfg.strict = true ∧ s.stack.length = s.cfg.stackDepth then .halted else s.status
  | .opFx0A x => .waitingForKey x
  | _ => s.status

namespace Machine

variable {s t u : State} {word : Word}

theorem status_of_exec00EE (h : exec00EE s = .next u) : u.status = Instr.op00EE.statusAfter s := by
  cases hs : s.stack with
  | nil =>
    obtain rfl := Host.Outcome.next.inj (exec00EE_of_nil hs ▸ h)
    simp [raise_eq, Instr.statusAfter, hs]
  | cons a rest =>
    obtain rfl := Host.Outcome.next.inj (exec00EE_of_cons hs ▸ h)
    simp [Instr.statusAfter, hs]

theorem status_of_exec2nnn {nnn : Addr} (h : exec2nnn nnn s = .next u) :
    u.status = (Instr.op2nnn nnn).statusAfter s := by
  by_cases hfull : s.stack.length = s.cfg.stackDepth
  · obtain rfl := Host.Outcome.next.inj (exec2nnn_of_full nnn hfull ▸ h)
    simp [status_raise_stackOverflow, Instr.statusAfter, hfull]
  · obtain rfl := Host.Outcome.next.inj (exec2nnn_of_room nnn hfull ▸ h)
    simp [State.push, Instr.statusAfter, hfull]

theorem exec_status {i : Instr} (h : exec i s = .next u) : u.status = i.statusAfter s := by
  cases i with
  | op00EE => exact status_of_exec00EE h
  | op2nnn nnn => exact status_of_exec2nnn h
  | opFx0A x => exact of_next (P := fun u => u.status = .waitingForKey x) h rfl
  | _ => exact (exec_onlyChanges h).1 .status (by simp [Instr.mayChange])

/-- A running engine halts in the execute phase by these words alone (R70, R75, R77, R131, R151). -/
theorem executeWord_halted_iff (hs : s.status = .running) (h : executeWord word s = .next u) :
    u.status = .halted ↔ (word = 0x00EE ∧ s.stack = []) ∨
      (s.cfg.strict = true ∧
        (wordDefined word = false ∨ (word.toNat / 0x1000 = 2 ∧ s.stack.length = s.cfg.stackDepth))) := by
  rw [← decodeWord_eq_op00EE_iff, ← decodeWord_eq_op2nnn_iff, wordDefined_eq_false_iff]
  cases hd : decodeWord word with
  | ok i =>
    rw [executeWord_of_decoded hd] at h
    rw [exec_status h]
    cases i <;> simp [Instr.statusAfter, hs]
  | error e =>
    rw [executeWord_of_undefined hd] at h
    rw [← Host.Outcome.next.inj h, status_raise_unknownOpcode hs]
    simp

/-- A running engine begins a wait in the execute phase by `Fx0A` alone (R123). -/
theorem executeWord_waiting_iff (hs : s.status = .running) (h : executeWord word s = .next u) (x : RegIdx) :
    u.status = .waitingForKey x ↔ word.toNat = 0xF00A + 0x100 * x.val := by
  rw [← decodeWord_eq_opFx0A_iff]
  cases hd : decodeWord word with
  | ok i =>
    rw [executeWord_of_decoded hd] at h
    rw [exec_status h]
    cases i with
    | op00EE | op2nnn _ =>
      simp only [Instr.statusAfter, hs]
      split <;> simp
    | _ => simp [Instr.statusAfter, hs]
  | error e =>
    rw [executeWord_of_undefined hd] at h
    rw [← Host.Outcome.next.inj h, status_raise_unknownOpcode hs]
    split <;> simp

/-! ### The cases of an iteration (R135) -/

theorem keyEvent_of_edge {k : Key} {rest : List Key} (h : s.inputs.edges = k :: rest) (r : RegIdx) :
    s.keyEvent r = (s.writeV r (BitVec.ofNat 8 k.val)).setStatus .running := by
  simp [keyEvent_eq, h]

theorem keyEvent_of_noEdge (h : s.inputs.edges = []) (r : RegIdx) : s.keyEvent r = s := by
  simp [keyEvent_eq, h]

/-- A byte holds the number of a key (R137). -/
theorem keyByte_toNat (k : Key) : (BitVec.ofNat 8 k.val).toNat = k.val := by
  rw [BitVec.toNat_ofNat]
  omega

/-- The next state by what the iteration does: nothing once halted, else quit, a wait that goes on or ends, or a step,
which the range check halts or which runs the fetched word. -/
inductive Iterated (s : State) : State → Prop
  | halted (hh : s.status = .halted) : Iterated s s.stopped
  | quit (hh : s.status ≠ .halted) (hq : s.nextInputs.quit = true) : Iterated s (s.sampleInputs.halt.setPresent false)
  | noEdge (r : RegIdx) (hw : s.status = .waitingForKey r) (hq : s.nextInputs.quit = false)
      (he : s.nextInputs.edges = []) : Iterated s (s.sampleInputs.setPresent false)
  | edge (r : RegIdx) (k : Key) (rest : List Key) (hw : s.status = .waitingForKey r) (hq : s.nextInputs.quit = false)
      (he : s.nextInputs.edges = k :: rest) :
      Iterated s (((s.sampleInputs.writeV r (BitVec.ofNat 8 k.val)).setStatus .running).setPresent false)
  | outOfRange (hd : StepDue s) (hp : pcLimit ≤ s.pc.toNat) : Iterated s (s.sampleInputs.halt.setPresent true)
  | executed (hd : StepDue s) (hp : s.pc.toNat < pcLimit) (u : State)
      (hu : executeWord s.fetched s.atExecute = .next u) : Iterated s (u.timerCheck.setPresent true)

theorem iterated_of_step (h : step s = .next t) : Iterated s t := by
  by_cases hh : s.status = .halted
  · exact of_next (step_of_halted s hh ▸ h) (.halted hh)
  by_cases hq : s.nextInputs.quit = true
  · exact of_next (step_of_quit s hh hq ▸ h) (.quit hh hq)
  rw [Bool.not_eq_true] at hq
  match hs : s.status with
  | .halted => exact absurd hs hh
  | .waitingForKey r =>
    rw [step_of_waiting s hs hq] at h
    cases he : s.nextInputs.edges with
    | nil =>
      rw [keyEvent_of_noEdge (by rw [sampleInputs_inputs, he])] at h
      exact of_next h (.noEdge r hs hq he)
    | cons k rest =>
      rw [keyEvent_of_edge (by rw [sampleInputs_inputs, he])] at h
      exact of_next h (.edge r k rest hs hq he)
  | .running =>
    have hd : StepDue s := ⟨hs, hq⟩
    by_cases hp : s.pc.toNat < pcLimit
    · obtain ⟨u, hu, -, hstep⟩ := step_of_fetch hd hp
      exact of_next (hstep ▸ h) (.executed hd hp u hu)
    · rw [Nat.not_lt] at hp
      exact of_next (step_of_due_outOfRange hd hp ▸ h) (.outOfRange hd hp)

theorem status_timerCheck_present (u : State) (b : Bool) : (u.timerCheck.setPresent b).status = u.status :=
  same_timerCheck_present u b (it := .status) (by simp) (by simp)

/-! ### What halts, what waits, what presents (R134, R147) -/

/-- Settles O10: of the cases of an iteration, a quit and the range check halt, a wait does not, and a fetched word does as
its execute phase does. -/
theorem haltHasExactlyTheseCauses : Obligations.HaltHasExactlyTheseCauses := by
  intro s t hs h
  cases iterated_of_step h with
  | halted hh => exact absurd hh hs
  | quit _ hq => simp [State.halt, hq]
  | noEdge r hw hq _ => simp [hw, hq]
  | edge r k rest hw hq _ => simp [hw, hq]
  | outOfRange hd hp =>
    simp only [pcLimit] at hp
    simp [State.halt, hd.running, hp]
  | executed hd hp u hu =>
    simp only [pcLimit] at hp
    rw [status_timerCheck_present, executeWord_halted_iff (by simpa using hd.running) hu]
    simp [hd.running, hd.noQuit, hp, Nat.not_le.2 hp]

/-- Settles O11: of the cases of an iteration, a wait without an edge goes on waiting, and a fetched word begins a wait as
its execute phase does. -/
theorem waitHasExactlyTheseCauses : Obligations.WaitHasExactlyTheseCauses := by
  intro s t x h
  cases iterated_of_step h with
  | halted hh => simp [hh]
  | quit _ hq => simp [State.halt, hq]
  | noEdge r hw hq he => simp [hw, hq, he]
  | edge r k rest hw hq he => simp [hw, he]
  | outOfRange hd hp =>
    simp only [pcLimit] at hp
    simp [State.halt, hd.running, Nat.not_lt.2 hp]
  | executed hd hp u hu =>
    simp only [pcLimit] at hp
    rw [status_timerCheck_present, executeWord_waiting_iff (by simpa using hd.running) hu]
    simp [hd.running, hd.noQuit, hp]

theorem stepDue_iff (s : State) : StepDue s ↔ s.status = .running ∧ s.nextInputs.quit = false :=
  ⟨fun h => ⟨h.running, h.noQuit⟩, fun h => ⟨h.1, h.2⟩⟩

/-- Settles O14: the cases with a step that is due answer `present`, the others do not. -/
theorem presentsExactlyAfterAStep : Obligations.PresentsExactlyAfterAStep := by
  intro s t h
  cases iterated_of_step h with
  | halted hh => simp [stepDue_iff, hh]
  | quit _ hq => simp [stepDue_iff, hq]
  | noEdge r hw _ _ => simp [stepDue_iff, hw]
  | edge r k rest hw _ _ => simp [stepDue_iff, hw]
  | outOfRange hd _ => simp [hd]
  | executed hd _ u _ => simp [hd]

/-! ### Events (R136, R137, R139) -/

/-- Settles O7: the quit is taken before anything else, and changes the execution state alone. -/
theorem quitHaltsAndChangesNothingElse : Obligations.QuitHaltsAndChangesNothingElse :=
  fun s hh hq => ⟨_, step_of_quit s hh hq, rfl, rfl, fun it hit =>
    same_of_sampled (onlyChanges_setStatus _ .halted) false (by simpa using hit)⟩

/-- Settles O9: a halted engine answers its own state, nothing presented. -/
theorem haltedIsTerminal : Obligations.HaltedIsTerminal :=
  fun s hh => ⟨_, step_of_halted s hh, same_setPresent s false, rfl, rfl, rfl⟩

/-- Settles O8: with an edge the key number, which a byte holds, is written and the engine runs; without one the state is
the one sampled. -/
theorem keyEdgeEndsTheWait : Obligations.KeyEdgeEndsTheWait := by
  intro s r hw hq
  have hstep := step_of_waiting s hw hq
  refine ⟨fun k rest he => ?_, fun he => ?_⟩
  · rw [keyEvent_of_edge (by rw [sampleInputs_inputs, he])] at hstep
    refine ⟨_, hstep, ?_, fun q hqr => ?_, rfl, rfl, fun it hv hst => ?_⟩
    · exact (congrArg BitVec.toNat (State.readV_writeV_same s.sampleInputs r _)).trans (keyByte_toNat k)
    · exact (keepsRegs_writeV s.sampleInputs r _ q hqr).trans (readV_sampleInputs s q)
    · refine same_of_sampled (items := [.v, .status]) ?_ false (by simp [hv, hst])
      exact ((onlyChanges_writeV _ _ _).mono (by simp)).trans ((onlyChanges_setStatus _ _).mono (by simp))
  · rw [keyEvent_of_noEdge (by rw [sampleInputs_inputs, he])] at hstep
    exact ⟨_, hstep, fun it => same_of_sampled (OnlyChanges.refl _ []) false (by simp), rfl⟩

/-! ### The tick (R143) -/

/-- Settles O12: with `tick_due` each timer is counted down, floored at 0; without it the check does nothing. -/
theorem tickCountsEachTimerDownOnce : Obligations.TickCountsEachTimerDownOnce := by
  refine fun s => ⟨fun htick => ?_, fun hno => ?_, onlyChanges_timerCheck s⟩
  · have hdt : s.timerCheck.dt.toNat = s.dt.toNat - 1 := by simp [timerCheck_eq, htick, countDown_toNat]
    have hst : s.timerCheck.st.toNat = s.st.toNat - 1 := by simp [timerCheck_eq, htick, countDown_toNat]
    rw [hdt, hst]
    omega
  · simp [timerCheck_eq, hno]

/-! ### Edges while the engine runs (R138)

No step reads the edges: it commutes with replacing them in the inputs of the iteration. -/

section

variable (s : State) (edges : List Key)

/-- The state with other key-down edges in the inputs of the iteration under way. -/
def State.withEdges : State := s.withInputs { s.inputs with edges := edges }

theorem exec_withEdges (i : Instr) : exec i (s.withEdges edges) = thenNext (exec i s) (·.withEdges edges) := by
  obtain ⟨t, ht⟩ := exec_next i s
  have hinputs : t.inputs = s.inputs := (exec_onlyChanges ht).2.inputs
  have hcommute : exec i (s.withEdges edges) = thenNext (exec i s) (·.withInputs { s.inputs with edges := edges }) := by
    cases i with
    | opCxkk _ _ => rfl
    | opEx9E _ | opExA1 _ => exact congrArg Host.Outcome.next (skipIf_withInputs s _ _)
    | _ => exact exec_withInputs s _ rfl
  rw [hcommute, ht, thenNext_next, thenNext_next, State.withEdges, hinputs]

theorem raise_withEdges (c : Condition) : (s.withEdges edges).raise c = (s.raise c).withEdges edges := by
  rw [State.withEdges, State.withEdges, raise_withInputs, (onlyChanges_raise s c).2.inputs]

theorem executeWord_withEdges (word : Word) :
    executeWord word (s.withEdges edges) = thenNext (executeWord word s) (·.withEdges edges) := by
  cases hd : decodeWord word with
  | ok i => rw [executeWord_of_decoded hd, executeWord_of_decoded hd, exec_withEdges]
  | error e =>
    rw [executeWord_of_undefined hd, executeWord_of_undefined hd, raise_withEdges, thenNext_next]

theorem timerCheck_withEdges : (s.withEdges edges).timerCheck = s.timerCheck.withEdges edges := by
  rw [timerCheck_eq, timerCheck_eq, apply_ite (State.withEdges · edges)]
  rfl

theorem engineStep_withEdges :
    engineStep (s.withEdges edges) = thenNext (engineStep s) (·.withEdges edges) := by
  by_cases hp : s.pc.toNat < pcLimit
  · obtain ⟨u, hu, -⟩ := executeWord_next s.advance s.fetched
    have hu' : executeWord (s.withEdges edges).fetched (s.withEdges edges).advance = .next (u.withEdges edges) :=
      (executeWord_withEdges s.advance edges s.fetched).trans (by rw [hu, thenNext_next])
    rw [engineStep_inRange s hp, engineStep_inRange (s.withEdges edges) hp, hu, hu']
    exact congrArg Host.Outcome.next (timerCheck_withEdges u edges)
  · rw [Nat.not_lt] at hp
    rw [engineStep_outOfRange s hp, engineStep_outOfRange (s.withEdges edges) hp]
    rfl

theorem iterate_withEdges (h : s.status = .running) :
    iterate (s.withEdges edges) = thenNext (iterate s) (·.withEdges edges) := by
  have hstatus : (s.withEdges edges).status = .running := h
  have hquit : (s.withEdges edges).inputs.quit = s.inputs.quit := rfl
  simp only [iterate, h, hstatus, hquit, engineStep_withEdges]
  cases s.inputs.quit
  · cases engineStep s <;> rfl
  · rfl

end

theorem step_eq_iterate (h : s.status = .running) : step s = iterate s.sampleInputs := by
  simp [step, loopPass, h]

/-- Settles O15: the inputs that differ in their edges are sampled, and the iteration commutes with replacing them. -/
theorem edgesWhileRunningAreDropped : Obligations.EdgesWhileRunningAreDropped := by
  intro s inp rest edges hs hsched
  obtain ⟨t, ht, -⟩ := stepAlwaysCompletesWithSameParameters s
  let s' : State := { s with schedule := { inp with edges := edges } :: rest }
  have hsample : s'.sampleInputs = s.sampleInputs.withEdges edges := by
    simp [s', State.sampleInputs, State.nextInputs, hsched, State.withEdges, State.withInputs]
  have hstep : step s' = .next (t.withEdges edges) := by
    rw [step_eq_iterate (s := s') hs, hsample, iterate_withEdges _ _ (by simpa using hs), ← step_eq_iterate hs, ht,
      thenNext_next]
  exact ⟨t, t.withEdges edges, ht, hstep, same_withInputs t _, rfl⟩

end Machine

end Sys2Proof
end

section
/-! SUPPORT. Program load (R161, R162): the copy of a ROM that fits, and the refusal of one that does not. -/

namespace Sys2Proof.Machine

variable {rom : List Byte}

theorem romFits_iff : romFits rom = true ↔ rom.length ≤ 0xCA0 := decide_eq_true_iff

theorem load_of_fits (h : rom.length ≤ 0xCA0) (s : State) : load rom s = .next (s.writeBytes progBase rom) :=
  if_pos (romFits_iff.2 h)

theorem load_of_tooLong (h : 0xCA0 < rom.length) (s : State) : load rom s = .refused (.romTooLong rom.length) :=
  if_neg fun hfits => Nat.not_le.2 h (romFits_iff.1 hfits)

/-- The copy of a ROM that fits ends below the top of memory, so that no address of it wraps (R161). -/
theorem keepsBytes_writeBytes_progBase (h : rom.length ≤ 0xCA0) (s : State) :
    KeepsBytesExcept (fun a => 0x200 ≤ a.toNat ∧ a.toNat < 0x200 + rom.length) s (s.writeBytes progBase rom) := by
  intro a ha
  refine readByte_writeBytes_other s progBase rom a fun k hk haddr => ha ?_
  simp only [haddr, ea_toNat, progBase]
  omega

/-- Settles O24: the run of bytes written at 0x200 reads back and keeps the rest, which after init is zero above it. -/
theorem loadCopiesTheRom : Obligations.LoadCopiesTheRom := by
  refine fun rom hrom => ⟨fun s => ⟨_, load_of_fits hrom s, ?copied, ?kept, ?frame⟩,
    fun cfg => ⟨_, load_of_fits hrom _, fun a ha => ?zero⟩⟩
  case copied => exact readByte_writeBytes s progBase rom (by omega)
  case kept => exact keepsBytes_writeBytes_progBase hrom s
  case frame => exact onlyChanges_writeBytes s progBase rom
  case zero =>
    have hkept := keepsBytes_writeBytes_progBase hrom (State.init cfg) a (by omega)
    rw [hkept, readByte_init]
    exact resetByte_elsewhere (.inr (by simp only [fontBase]; omega))

/-- Settles O25: a ROM that does not fit takes the refusing branch of `load`, whatever the state. -/
theorem longRomIsRefused : Obligations.LongRomIsRefused :=
  fun _ s hlong => load_of_tooLong hlong s

end Sys2Proof.Machine
end
